-- ==== Sys2Proof/Word.lean ====
section
/-! DEFINITION. The widths of the block's values (00_scope.md rules R4, R6, R8). Every one is unsigned. -/

namespace Sys2Proof

/-- An 8-bit value: a cell of `FB`, an input byte, an address, a length (R8, R12, R41). -/
abbrev Byte := BitVec 8

/-- A 16-bit value: the register `CRC`, `imm16`, a response value (R10, R41, R47). -/
abbrev Half := BitVec 16

/-- A 24-bit command word `cw` (R40). -/
abbrev CommandWord := BitVec 24

end Sys2Proof
end

