-- ==== Sys2Proof/Syntax.lean ====
section
/-! DEFINITION. The seven commands (30_encoding.md rule R43), one constructor per row of spec/opcode_table.json. The
operands carry the widths of R41 and R51 in their types, so every term of `Instr` is a legal command. -/

namespace Sys2Proof

/-- A command of the block, after decoding. -/
inductive Instr where
  /-- CRC.LD imm16 (R64). -/
  | crcLd (imm16 : Half)
  /-- CRC.STEP byte (R65). -/
  | crcStep (byte : Byte)
  /-- CRC.RD (R66). -/
  | crcRd
  /-- CRC.FIN (R67). -/
  | crcFin
  /-- FB.WR addr, data (R84). -/
  | fbWr (addr data : Byte)
  /-- FB.RD addr (R86). -/
  | fbRd (addr : Byte)
  /-- FC.COMPACT len (R88). -/
  | fcCompact (len : Byte)
  deriving DecidableEq, Repr

/-- Whether a command belongs to the CRC unit (`op[7:4] = 1`); otherwise it belongs to the frame unit
(`op[7:4] = 2`) (R41). -/
def Instr.isCrcUnit : Instr → Bool
  | .crcLd _ => true
  | .crcStep _ => true
  | .crcRd => true
  | .crcFin => true
  | .fbWr _ _ => false
  | .fbRd _ => false
  | .fcCompact _ => false

end Sys2Proof
end

