-- ==== Sys2Proof/WellFormed.lean ====
section
/-! DEFINITION. What is well formed: a command word that selects a row of the opcode table (30_encoding.md rule R43),
and a line of a listing whose operands are in their ranges (R49, R50). A term of `Instr` needs no check of its own: the
types of its operands are their ranges. -/

namespace Sys2Proof

/-- A row of the opcode table: the word `cw` selects it when `(cw and maskBits) = matchBits` (R43). -/
structure Row where
  mnemonic  : String
  matchBits : CommandWord
  maskBits  : CommandWord
  deriving DecidableEq, Repr

/-- The seven rows of R43. -/
def opcodeTable : List Row :=
  [ ⟨"CRC.LD", 0x110000, 0xFF0000⟩,
    ⟨"CRC.STEP", 0x120000, 0xFFFF00⟩,
    ⟨"CRC.RD", 0x130000, 0xFFFFFF⟩,
    ⟨"CRC.FIN", 0x140000, 0xFFFFFF⟩,
    ⟨"FB.WR", 0x210000, 0xFF0000⟩,
    ⟨"FB.RD", 0x220000, 0xFF00FF⟩,
    ⟨"FC.COMPACT", 0x230000, 0xFFFF00⟩ ]

/-- `cw` selects the row (R43). -/
def Row.selects (r : Row) (cw : CommandWord) : Bool := cw &&& r.maskBits == r.matchBits

/-- The word is well formed: it selects some row of the table (R43, R105). -/
def wellFormedWord (cw : CommandWord) : Bool := opcodeTable.any fun r => r.selects cw

/-- One line of a listing (R49), a pseudo-command (R50) included. Its operands are numbers as written, in range or
not. -/
inductive Listing where
  | crcLd (imm16 : Nat)
  | crcStep (byte : Nat)
  | crcRd
  | crcFin
  | fbWr (addr data : Nat)
  | fbRd (addr : Nat)
  | fcCompact (len : Nat)
  /-- CRC.CLR (R50). -/
  | crcClr
  /-- CHECKSUM b0, ..., b(n-1), n >= 0 (R50). -/
  | checksum (bytes : List Nat)
  /-- FB.LOAD a, b0, ..., b(n-1), a + n <= 256 (R50). -/
  | fbLoad (a : Nat) (bytes : List Nat)
  deriving DecidableEq, Repr

/-- Every operand is in its range: "An operand outside its range is an error of the listing, not a command" (R49);
FB.LOAD needs `a + n <= 256` (R50). -/
def Listing.wellFormed : Listing → Bool
  | .crcLd imm16 => imm16 < 2 ^ 16
  | .crcStep byte => byte < 2 ^ 8
  | .crcRd => true
  | .crcFin => true
  | .fbWr addr data => addr < 2 ^ 8 && data < 2 ^ 8
  | .fbRd addr => addr < 2 ^ 8
  | .fcCompact len => len < 2 ^ 8
  | .crcClr => true
  | .checksum bytes => bytes.all (· < 2 ^ 8)
  | .fbLoad a bytes => a + bytes.length ≤ 256 && bytes.all (· < 2 ^ 8)

end Sys2Proof
end

