-- ==== Sys2Proof/Decode.lean ====
section
/-! DEFINITION. Fields of a command word (30_encoding.md rule R41), the total decoder (R44), and the encoder, written
from the formats of R42 and the table of R43. Decoding reads no state. -/

namespace Sys2Proof

/-- `op = cw[23:16]` (R41). -/
def op (cw : CommandWord) : Byte := cw.extractLsb' 16 8

/-- `imm16 = cw[15:0]` (R41). -/
def imm16 (cw : CommandWord) : Half := cw.extractLsb' 0 16

/-- `hi8 = cw[15:8]` (R41). -/
def hi8 (cw : CommandWord) : Byte := cw.extractLsb' 8 8

/-- `lo8 = cw[7:0]` (R41). -/
def lo8 (cw : CommandWord) : Byte := cw.extractLsb' 0 8

/-- Why a word selects no row of the table: "unknown `op`, or a must-be-zero bit set" (R100). Both raise
IllegalCommand. -/
inductive IllegalWord where
  | unknownOp
  | mustBeZeroBitSet
  deriving DecidableEq, Repr

/-- The decoder of R44: every 24-bit word is a command or is rejected by name. -/
def decode (cw : CommandWord) : Except IllegalWord Instr :=
  if op cw = 0x11 then .ok (.crcLd (imm16 cw))
  else if op cw = 0x12 then
    if hi8 cw = 0 then .ok (.crcStep (lo8 cw)) else .error .mustBeZeroBitSet
  else if op cw = 0x13 then
    if imm16 cw = 0 then .ok .crcRd else .error .mustBeZeroBitSet
  else if op cw = 0x14 then
    if imm16 cw = 0 then .ok .crcFin else .error .mustBeZeroBitSet
  else if op cw = 0x21 then .ok (.fbWr (hi8 cw) (lo8 cw))
  else if op cw = 0x22 then
    if lo8 cw = 0 then .ok (.fbRd (hi8 cw)) else .error .mustBeZeroBitSet
  else if op cw = 0x23 then
    if hi8 cw = 0 then .ok (.fcCompact (lo8 cw)) else .error .mustBeZeroBitSet
  else .error .unknownOp

/-- Format I16: `op`, then a 16-bit immediate (R42). -/
def formatI16 (op : Byte) (imm16 : Half) : CommandWord := op.setWidth 24 <<< 16 ||| imm16.setWidth 24

/-- Format AD: `op`, `hi8`, `lo8` (R42). -/
def formatAD (op hi8 lo8 : Byte) : CommandWord :=
  op.setWidth 24 <<< 16 ||| hi8.setWidth 24 <<< 8 ||| lo8.setWidth 24

/-- Format B: `op`, a zero byte, `lo8` (R42). -/
def formatB (op lo8 : Byte) : CommandWord := formatAD op 0 lo8

/-- Format A: `op`, `hi8`, a zero byte (R42). -/
def formatA (op hi8 : Byte) : CommandWord := formatAD op hi8 0

/-- Format Z: `op`, then sixteen zero bits (R42). -/
def formatZ (op : Byte) : CommandWord := formatAD op 0 0

/-- The command word of a command: format and `op` of its row of R43. -/
def encode : Instr → CommandWord
  | .crcLd imm16 => formatI16 0x11 imm16
  | .crcStep byte => formatB 0x12 byte
  | .crcRd => formatZ 0x13
  | .crcFin => formatZ 0x14
  | .fbWr addr data => formatAD 0x21 addr data
  | .fbRd addr => formatA 0x22 addr
  | .fcCompact len => formatB 0x23 len

/-- The command word the opcode table's number `w` of `nbits` bits stands for: bits at and above `nbits` are zero. The
table numbers a command word as R8 and R41 do, and every row of it has 24 bits. -/
def tableWord (nbits w : Nat) : CommandWord := BitVec.ofNat 24 (w % 2 ^ nbits)

/-- The command this decoder reads from the opcode table's number `w` of `nbits` bits. A command word has exactly 24 bits
(R40), so a longer number is no command (assumption 14). -/
def decodeTableWord (nbits w : Nat) : Option Instr :=
  if nbits ≤ 24 then (decode (tableWord nbits w)).toOption else none

end Sys2Proof
end

