-- ==== Sys2Proof/Config.lean ====
section
/-! DEFINITION. What is fixed for the block and is not state (00_scope.md rules R4, R5, R6; R121), and the free
values, which the spec leaves open (R20, R90). -/

namespace Sys2Proof

/-- The default of `POLY`, and the value of this hardware (R5, R6). UNVERIFIED by the source (assumption 3); unsafe for a
claim that uses the number. -/
def Config.poly : Half := 0x8005

/-- What a reader may set for a block: `POLY`, "overridable" (R6), "a configuration field with default 0x8005" (R5). It is
no state, and no command reads or writes it (R4). `{}` is this hardware. -/
structure Parameters where
  poly : Half := Config.poly
  deriving DecidableEq, Repr

/-- `CRC_INIT` (R4): the register at the start of a checksum. -/
def Config.crcInit : Half := 0x0000

/-- `CRC_XOROUT` (R4): the checksum is the register with all 16 bits inverted. -/
def Config.crcXorOut : Half := 0xFFFF

/-- `HDR` (R4): bytes [0, 10) of a frame stay in place. -/
def Config.hdr : Nat := 10

/-- `SKIP` (R4): the read cursor starts at byte 12. -/
def Config.skip : Nat := 12

/-- `GROUP` (R4): the size of a full source group. -/
def Config.group : Nat := 18

/-- `KEEP` (R4): the bytes kept of each full group. -/
def Config.keep : Nat := 16

/-- `DROP` (R4): the bytes dropped at the end of each group, full or partial. -/
def Config.drop : Nat := 2

/-- `MIN_LEN` (R4): the smallest legal frame length. -/
def Config.minLen : Nat := 12

/-- `FB_SIZE` (R6, R12): the cells of the frame buffer, indexed 0 to 255. -/
def Config.fbSize : Nat := 256

/-- The most iterations the loop of FC.COMPACT makes for any legal length (R94, R133). -/
def Config.maxIterations : Nat := 14

/-- The byte the spec leaves unspecified at the `k`-th draw: a tail cell after FC.COMPACT (R90, the `Draw` of R7) and a
cell of `FB` after the `rst` input (R20, R120). No value of it can be proved. Assumption 4, safe. -/
opaque Config.freeByte : Nat → Byte

/-- The 16-bit value the spec leaves unspecified at the `k`-th draw: `CRC` after the `rst` input (R20, R120).
Assumption 7, safe. -/
opaque Config.freeHalf : Nat → Half

end Sys2Proof
end

