-- ==== Sys2Proof/Machine/Operands.lean ====
section
/-! DEFINITION. Operand assembly and the unsigned primitives of the rules' pseudocode (00_scope.md rule R8, R51), and
the one addressing mode (41_frame.md rule R81). -/

namespace Sys2Proof.Machine

/-- `zext_16(v)`: an 8-bit result as a 16-bit response value (R8, R51). -/
def zext16 (v : Byte) : Half := v.setWidth 16

/-- `not_16(x)`: all 16 bits inverted, `x xor 0xFFFF` (R8). -/
def not16 (x : Half) : Half := x ^^^ Config.crcXorOut

/-- `shl1_16(x) = {x[14:0], 0}`: bit 15 is discarded (R8). -/
def shl1 (x : Half) : Half := x <<< 1

/-- `sat_sub(a, b)`: subtraction clamped at 0 (R8, R89). -/
def satSub (a b : Nat) : Nat := if b ≤ a then a - b else 0

/-- The index of `FB` that an 8-bit address operand names: the address itself, with no base, index, displacement or
scaling (R81). -/
def effectiveAddr (addr : Byte) : Nat := addr.toNat

/-- `x[15:8]` of a 16-bit value. -/
def highByte (x : Half) : Byte := x.extractLsb' 8 8

/-- `x[7:0]` of a 16-bit value. -/
def lowByte (x : Half) : Byte := x.extractLsb' 0 8

end Sys2Proof.Machine
end

