-- ==== Sys2Proof/Machine/State.lean ====
section
/-! DEFINITION. The state: `CRC` and `FB`, all that the spec gives the block (10_state.md section 1), the two ends of
its command interface (30_encoding.md rules R47, R52), and the counter of free values. All of it is plain data. -/

namespace Sys2Proof.Machine

/-- The contents of `FB` (R12) as address and byte pairs, addresses rising; the canonical form is `Memory.wf`
(Ops.lean). -/
abbrev Memory := List Host.Cell

/-- What the host does at the ports in one step (R7, R52). -/
inductive HostInput where
  /-- The host offers a command word on `cmd` with `cmd_valid`. -/
  | command (cw : CommandWord)
  /-- The host asserts `rst` (R120). -/
  | rst
  deriving DecidableEq, Repr

/-- A response: `rsp_status` and `rsp_value` (R47). -/
structure Response where
  status : BitVec 2
  value  : Half
  deriving DecidableEq, Repr

/-- The two exceptions of R100, each with what it was raised on. -/
inductive Exception where
  /-- FC.COMPACT with `len < 12` (R101). -/
  | invalidArgument (len : Byte)
  /-- A word that selects no row of the opcode table (R102). -/
  | illegalCommand (cw : CommandWord)
  deriving DecidableEq, Repr

/-- The machine. -/
structure State where
  /-- `CRC`, the block's only register (R10). -/
  crc    : Half
  /-- `FB`, the block's only memory (R12). -/
  fb     : Memory
  /-- What the host will do at the ports, next first. The host's own state, not the block's (R15); assumption 5. -/
  inputs : List HostInput
  /-- The response the latest step gave, if it gave one: `rsp_valid` with its two fields (R52); assumption 6. -/
  rsp    : Option Response
  /-- How many free values have been drawn. The model's own field, the supply of the `Draw` of R7; assumption 4. -/
  draws  : Nat
  deriving DecidableEq, Repr

/-- Reasons for the machine to stop with a fault. There are none: an error of the block is a response and the next
command runs as if the erroneous one had not been sent (R103, R104), no access leaves `FB` (R94), and every command
terminates (R133). Assumption 10. -/
inductive Fault where
  deriving DecidableEq, Repr

/-- Reasons to give a command no meaning. -/
inductive Refusal where
  /-- Raised by an arm of `exec` for a command that has no meaning yet; safe. No arm raises it: all seven commands have
  their meaning. -/
  | notModelled (mnemonic : String)
  deriving DecidableEq, Repr

/-- The machine right after reset: no command offered and no response pending (R120). R20 names no value for `CRC` and
`FB`; the zeros here are the model's (DESIGN CHOICE, unsafe: assumptions 1 and 2), and so is the counter's start
(DESIGN CHOICE, assumption 4). A claim is stated for all values of them. -/
def State.reset : State :=
  { crc := 0, fb := [], inputs := [], rsp := none, draws := 0 }

end Sys2Proof.Machine
end

