-- ==== Sys2Proof/Machine/Flags.lean ====
section
/-! DEFINITION. The block has no flag, condition code or status register (10_state.md rules R14, R17). What reports how a
command ended is the status of its response (30_encoding.md rule R47, 60_exceptions.md rule R100). -/

namespace Sys2Proof.Machine

/-- Status 0: "OK, no exception" (R47, R100). -/
def statusOk : BitVec 2 := 0

/-- Status 1: InvalidArgument (R100). -/
def statusInvalidArgument : BitVec 2 := 1

/-- Status 2: IllegalCommand (R100). Status 3 is never given. -/
def statusIllegalCommand : BitVec 2 := 2

/-- The response of a command that ends with `respond(v)` (R8). -/
def okResponse (v : Half) : Response := { status := statusOk, value := v }

/-- The response of a command that raises an exception: its status code and the value R100 records for it, `zext_16(len)`
or `zext_16(cw[23:16])`. -/
def Exception.response : Exception → Response
  | .invalidArgument len => { status := statusInvalidArgument, value := zext16 len }
  | .illegalCommand cw => { status := statusIllegalCommand, value := zext16 (op cw) }

/-- The responses the block can give (R47, R100): status OK with any value, InvalidArgument with a length below 12,
IllegalCommand with an opcode byte. -/
def Response.legal (r : Response) : Bool :=
  r.status == statusOk
    || (r.status == statusInvalidArgument && decide (r.value.toNat < Config.minLen))
    || (r.status == statusIllegalCommand && decide (r.value.toNat < 2 ^ 8))

end Sys2Proof.Machine
end

