-- ==== Sys2Proof/Machine/Ops.lean ====
section
/-! DEFINITION. The operations every meaning is written over: the frame buffer, the register, the response, raising an
exception, the free values, the host's inputs, and reset. -/

namespace Sys2Proof.Machine

/-! ### The frame buffer -/

/-- What a cell of `FB` that is not listed reads as. R20 leaves a cell unspecified until it is written; the byte 0x00 is
the model's (DESIGN CHOICE, unsafe: assumption 2). -/
def Memory.unwritten : Byte := 0

/-- `FB[a]`. -/
def Memory.read : Memory → Nat → Byte
  | [], _ => Memory.unwritten
  | c :: rest, a => if c.1 = a then c.2 else Memory.read rest a

/-- The cell `(a, b)` in front of `rest`, left out when it says no more than an unlisted cell does. -/
def Memory.cons (a : Nat) (b : Byte) (rest : Memory) : Memory :=
  if b = Memory.unwritten then rest else (a, b) :: rest

/-- `FB[a] <- b`, keeping the canonical form. -/
def Memory.write : Memory → Nat → Byte → Memory
  | [], a, b => Memory.cons a b []
  | c :: rest, a, b =>
    if a < c.1 then Memory.cons a b (c :: rest)
    else if a = c.1 then Memory.cons a b rest
    else c :: Memory.write rest a b

/-- `FB[a .. a+n-1]`, a list of `n` bytes (R8). -/
def Memory.readBytes (m : Memory) (a n : Nat) : List Byte :=
  (List.range n).map fun i => m.read (a + i)

/-- `FB[a .. a+n-1] <- bytes`, the first byte at `a`. -/
def Memory.writeBytes : Memory → Nat → List Byte → Memory
  | m, _, [] => m
  | m, a, b :: rest => Memory.writeBytes (m.write a b) (a + 1) rest

/-- Addresses strictly rising, each above `lo`. -/
def Memory.risingFrom : Nat → Memory → Bool
  | _, [] => true
  | lo, c :: rest => decide (lo ≤ c.1) && Memory.risingFrom (c.1 + 1) rest

/-- The canonical form: addresses strictly rising, all of them cells of `FB` (R12), and no cell listed that reads as an
unlisted one does. -/
def Memory.wf (m : Memory) : Bool :=
  Memory.risingFrom 0 m
    && m.all fun c => decide (c.1 < Config.fbSize) && decide (c.2 ≠ Memory.unwritten)

/-! ### The register and the response -/

/-- `CRC <- v` (R10): all 65536 values are legal, no bit is hardwired. -/
def State.setCrc (v : Half) (s : State) : State := { s with crc := v }

/-- `MemRead(a, 1)` (R8). -/
def State.readByte (s : State) (a : Nat) : Byte := s.fb.read a

/-- `MemWrite(a, 1, b)` (R8). -/
def State.writeByte (a : Nat) (b : Byte) (s : State) : State := { s with fb := s.fb.write a b }

/-- `respond(v)`: the command ends with status OK and value `v` (R8). -/
def State.respond (v : Half) (s : State) : State := { s with rsp := some (okResponse v) }

/-! ### Exceptions -/

/-- Error entry, the one operation that raises an exception (R103): no architectural state is written, the response
carries the status code and value of R100, and nothing else happens: no cause register, no saved program counter, no
mode, no vector. There is no return beside it: an error is not latched, and the command after it is executed as if it
had not been sent (R104). -/
def State.raise (e : Exception) (s : State) : State := { s with rsp := some e.response }

/-! ### Free values -/

/-- The next `n` free bytes (R7 `Draw`, R90), the first for the lowest address. -/
def State.freeBytes (s : State) (n : Nat) : List Byte :=
  (List.range n).map fun i => Config.freeByte (s.draws + i)

/-- `n` free values have been used. -/
def State.advanceDraws (n : Nat) (s : State) : State := { s with draws := s.draws + n }

/-! ### The host's end of the interface -/

/-- The next input of the host and the state once it has been taken (R52: a command is accepted when it is offered and
the block is ready, which it is between any two steps, R7). -/
def State.takeInput (s : State) : Option (HostInput × State) :=
  match s.inputs with
  | [] => none
  | i :: rest => some (i, { s with inputs := rest })

/-- The host offers the command word `cw` before anything else it does. -/
def State.offer (cw : CommandWord) (s : State) : State :=
  { s with inputs := .command cw :: s.inputs }

/-- `cmd_ready` as the host sees it between two steps: "0 from the acceptance of a command until its response has been
given" (R52), which is inside one step (R7), and "1 once reset is released" (R120). Assumption 8. -/
def State.cmdReady (_ : State) : Bool := true

/-- Between commands the block is idle and holds `CRC` and `FB` (R116); a response is given for one cycle (R52), so the
next step without a command gives none (assumption 6). -/
def State.idle (s : State) : State := { s with rsp := none }

/-- The `rst` input (R120): no response is pending; `CRC` and every `FB[i]` hold an unspecified value (R20), here free
values of the draws, so that they need not be the same after two resets. Assumption 7. -/
def State.applyReset (s : State) : State :=
  { s with
    crc := Config.freeHalf s.draws
    fb := Memory.writeBytes [] 0 ((s.advanceDraws 1).freeBytes Config.fbSize)
    rsp := none
    draws := s.draws + 1 + Config.fbSize }

end Sys2Proof.Machine
end

