-- ==== Sys2Proof/Machine/Crc.lean ====
section
/-! DEFINITION. The CRC unit (40_crc.md): its functions, for every polynomial, and the commands CRC.LD, CRC.STEP, CRC.RD
and CRC.FIN. -/

namespace Sys2Proof.Machine

/-- One step of the shift register with data bit `d` (R61): the test uses `r[15]` before the shift, the XOR applies to
the shifted value. -/
def crcBit (poly r : Half) (d : Bool) : Half :=
  if r.getLsbD 15 ^^ d then shl1 r ^^^ poly else shl1 r

/-- One input byte: eight bit steps, from bit 7 of `b` down to bit 0 (R62). -/
def crcStep (poly r : Half) (b : Byte) : Half :=
  [7, 6, 5, 4, 3, 2, 1, 0].foldl (fun acc i => crcBit poly acc (b.getLsbD i)) r

/-- One iteration of the source's own form of the byte step, with a shifting copy of the byte (R62, `crcStep_ref`). -/
def crcRefIter (poly : Half) (c : Half × Byte) : Half × Byte :=
  let cond := (c.1 >>> 8) &&& (0x80 : Half) ≠ zext16 c.2 &&& (0x80 : Half)
  let shifted := (c.1 <<< 1) &&& (0xFFFF : Half)
  (if cond then shifted ^^^ poly else shifted, c.2 <<< 1)

/-- The source's own form of the byte step: `repeat 8 times` (R62, `crcStep_ref`). -/
def crcStepRef (poly r : Half) (b : Byte) : Half := ((crcRefIter poly)^[8] (r, b)).1

/-- The register after the bytes of `data`, first to last, from `r`. -/
def crcBytes (poly r : Half) (data : List Byte) : Half := data.foldl (crcStep poly) r

/-- The whole-buffer checksum (R68): start from 0, step per byte in order, return the complement. -/
def checksum (poly : Half) (data : List Byte) : Half := not16 (crcBytes poly Config.crcInit data)

/-- CRC.LD imm16 (R64). -/
def execCrcLd (imm16 : Half) (s : State) : Host.Outcome State Fault Refusal :=
  .next ((s.setCrc imm16).respond 0x0000)

/-- CRC.STEP byte (R65) in a block whose polynomial is `poly` (R5): the response is the new value of `CRC`. -/
def crcStepCommand (poly : Half) (byte : Byte) (s : State) : Host.Outcome State Fault Refusal :=
  let t := s.setCrc (crcStep poly s.crc byte)
  .next (t.respond t.crc)

/-- CRC.STEP byte (R65) in this hardware. -/
def execCrcStep (byte : Byte) (s : State) : Host.Outcome State Fault Refusal := crcStepCommand Config.poly byte s

/-- CRC.RD (R66). -/
def execCrcRd (s : State) : Host.Outcome State Fault Refusal := .next (s.respond s.crc)

/-- CRC.FIN (R67): the complement is returned, not stored. -/
def execCrcFin (s : State) : Host.Outcome State Fault Refusal := .next (s.respond (not16 s.crc))

end Sys2Proof.Machine
end

