-- ==== Sys2Proof/Machine/Frame.lean ====
section
/-! DEFINITION. The frame unit (41_frame.md): the copy primitive, the compaction loop and its closed forms, and the
commands FB.WR, FB.RD and FC.COMPACT. The cursors are natural numbers: by R94 none of them leaves 8 bits for a legal
length (assumption 11). -/

namespace Sys2Proof.Machine

/-- `copy(src, dst, n)` with snapshot semantics (R87): all `n` source bytes are taken, then all are written. -/
def copy (m : Memory) (src dst n : Nat) : Memory := m.writeBytes dst (m.readBytes src n)

/-- A byte-by-byte copy in ascending index order (R87): not what FC.COMPACT is defined by, but what it may be compared
with. -/
def copyAscending (m : Memory) (src dst n : Nat) : Memory :=
  (List.range n).foldl (fun acc i => acc.write (dst + i) (acc.read (src + i))) m

/-- A byte-by-byte copy in descending index order (R87): the one that is not overlap-safe here. -/
def copyDescending (m : Memory) (src dst n : Nat) : Memory :=
  (List.range n).reverse.foldl (fun acc i => acc.write (dst + i) (acc.read (src + i))) m

/-- The buffer and the call-local cursors inside one FC.COMPACT (R88, R16). -/
structure Compaction where
  fb      : Memory
  rd      : Nat
  wr      : Nat
  rem     : Nat
  written : Nat
  deriving DecidableEq, Repr

/-- The cursors before the loop: source steps 1 and 2 (R88). -/
def compactStart (m : Memory) (len : Nat) : Compaction :=
  { fb := m, rd := Config.skip, wr := Config.hdr, rem := len - Config.skip, written := Config.hdr }

/-- One iteration of the loop, source step 3 (R88): a full group, the final partial group, or nothing once
`rem = 0`. -/
def compactIter (c : Compaction) : Compaction :=
  if c.rem = 0 then c
  else if Config.group ≤ c.rem then
    { fb := copy c.fb c.rd c.wr Config.keep
      rd := c.rd + Config.group
      wr := c.wr + Config.keep
      rem := c.rem - Config.group
      written := c.written + Config.keep }
  else
    let n := satSub c.rem Config.drop
    { fb := copy c.fb c.rd c.wr n
      rd := c.rd
      wr := c.wr + n
      rem := 0
      written := c.written + n }

/-- The loop `while rem > 0` of R88: fourteen iterations are enough for every legal length (R94), and an iteration with
`rem = 0` changes nothing (assumption 12). -/
def compactLoop (m : Memory) (len : Nat) : Compaction :=
  compactIter^[Config.maxIterations] (compactStart m len)

/-- `newLen(L)` in closed form (R91). -/
def newLen (len : Nat) : Nat :=
  Config.hdr + Config.keep * ((len - Config.skip) / Config.group)
    + satSub ((len - Config.skip) % Config.group) Config.drop

/-- The index of the old buffer whose byte stands at index `j` of the compacted payload (R92). -/
def sourceIndex (j : Nat) : Nat :=
  Config.skip + Config.group * ((j - Config.hdr) / Config.keep) + (j - Config.hdr) % Config.keep

/-- FB.WR addr, data (R84). -/
def execFbWr (addr data : Byte) (s : State) : Host.Outcome State Fault Refusal :=
  .next ((s.writeByte (effectiveAddr addr) data).respond 0x0000)

/-- FB.RD addr (R86): one byte, zero-extended. -/
def execFbRd (addr : Byte) (s : State) : Host.Outcome State Fault Refusal :=
  .next (s.respond (zext16 (s.readByte (effectiveAddr addr))))

/-- FC.COMPACT len (R88). A length below 12 raises InvalidArgument before anything is written (R101). Otherwise the loop
runs, the cells [newLen, L) take free values (R90), and the new length is the response. -/
def execFcCompact (len : Byte) (s : State) : Host.Outcome State Fault Refusal :=
  if len.toNat < Config.minLen then .next (s.raise (.invalidArgument len))
  else
    let c := compactLoop s.fb len.toNat
    let n := len.toNat - c.written
    let t := { s with fb := c.fb.writeBytes c.written (s.freeBytes n) }
    .next ((t.advanceDraws n).respond (BitVec.ofNat 16 c.written))

end Sys2Proof.Machine
end

