-- ==== Sys2Proof/Machine/Dispatch.lean ====
section
/-! DEFINITION. One arm per command (30_encoding.md rule R43). -/

namespace Sys2Proof.Machine

/-- The meaning of a command. -/
def exec (i : Instr) (s : State) : Host.Outcome State Fault Refusal :=
  match i with
  | .crcLd imm16 => Sys2Proof.Machine.execCrcLd imm16 s
  | .crcStep byte => Sys2Proof.Machine.execCrcStep byte s
  | .crcRd => Sys2Proof.Machine.execCrcRd s
  | .crcFin => Sys2Proof.Machine.execCrcFin s
  | .fbWr addr data => Sys2Proof.Machine.execFbWr addr data s
  | .fbRd addr => Sys2Proof.Machine.execFbRd addr s
  | .fcCompact len => Sys2Proof.Machine.execFcCompact len s

end Sys2Proof.Machine
end

