-- ==== Sys2Proof/Machine/Execute.lean ====
section
/-! DEFINITION. One accepted command word, from the word to its response, and one step: the step function of 00_scope.md
rule R7. What is the same for every polynomial (R5) is said once, over the meanings of the commands. -/

namespace Sys2Proof.Machine

/-- Decoding comes first (R105): a well-formed word runs its command, any other raises IllegalCommand (R44, R102). -/
def executeUsing (meaning : Instr → State → Host.Outcome State Fault Refusal) (cw : CommandWord) (s : State) :
    Host.Outcome State Fault Refusal :=
  match decode cw with
  | .ok i => meaning i s
  | .error _ => .next (s.raise (.illegalCommand cw))

/-- What one input of the host does to the block: a command word is executed, `rst` resets (R52, R120). -/
def applyInput (meaning : Instr → State → Host.Outcome State Fault Refusal) :
    HostInput → State → Host.Outcome State Fault Refusal
  | .command cw, s => executeUsing meaning cw s
  | .rst, s => .next s.applyReset

/-- CORE takes the host's next input and carries it out whole, as one atomic transition (R7, R31); with none, it is idle
(R116). -/
def stepUsing (meaning : Instr → State → Host.Outcome State Fault Refusal) (s : State) :
    Host.Outcome State Fault Refusal :=
  match s.takeInput with
  | none => .next s.idle
  | some (input, t) => applyInput meaning input t

/-- The execution of a command word in this hardware. -/
def execute (cw : CommandWord) (s : State) : Host.Outcome State Fault Refusal := executeUsing exec cw s

end Sys2Proof.Machine
end

