-- ==== Sys2Proof/Machine/Step.lean ====
section
/-! DEFINITION. One step: CORE takes the host's next input and carries it out whole, as one atomic transition
(00_scope.md rule R7, 20_memory.md rule R31); with none, it is idle (60_exceptions.md rule R116). -/

namespace Sys2Proof.Machine

/-- One step of the machine: of this hardware, whose polynomial is the default. -/
def step (s : State) : Host.Outcome State Fault Refusal := stepUsing exec s

/-- `s` with the opcode table's word `w` of `nbits` bits offered on the command port, where the next step takes its
command (assumption 5). -/
def State.withFetchWord (s : State) (nbits w : Nat) : State := s.offer (tableWord nbits w)

end Sys2Proof.Machine
end

