-- ==== Sys2Proof/Machine/Configured.lean ====
section
/-! DEFINITION. The machine for any value of its parameter `POLY` (00_scope.md rules R5, R6). The host's interface fixes
the types of `exec`, `step` and `core`, which leave no room for the parameter: those are the machine with its default
(assumption 3). -/

namespace Sys2Proof.Machine

/-- The meaning of a command in the block with the parameters `p`. CRC.STEP alone uses `POLY` (R65). -/
def execWith (p : Parameters) (i : Instr) (s : State) : Host.Outcome State Fault Refusal :=
  match i with
  | .crcLd imm16 => execCrcLd imm16 s
  | .crcStep byte => crcStepCommand p.poly byte s
  | .crcRd => execCrcRd s
  | .crcFin => execCrcFin s
  | .fbWr addr data => execFbWr addr data s
  | .fbRd addr => execFbRd addr s
  | .fcCompact len => execFcCompact len s

/-- The execution of a command word in the block with the parameters `p`. -/
def executeWith (p : Parameters) (cw : CommandWord) (s : State) : Host.Outcome State Fault Refusal :=
  executeUsing (execWith p) cw s

/-- One step of the block with the parameters `p`. -/
def stepWith (p : Parameters) (s : State) : Host.Outcome State Fault Refusal := stepUsing (execWith p) s

/-- The machine with the parameters `p`, as the host's interface takes it; `coreWith {}` is `core`. -/
def coreWith (p : Parameters) : Host.Core :=
  { Sys2Proof.core with step := stepWith p }

/-- `k` steps of the block with the parameters `p`. -/
def runWith (p : Parameters) (k : Nat) (s : State) : Host.Outcome State Fault Refusal := (coreWith p).run k s

end Sys2Proof.Machine
end

