-- ==== Sys2Proof/Machine/Listing.lean ====
section
/-! DEFINITION. The listing form of commands (30_encoding.md rules R49, R50): reading a line, expanding a pseudo-command,
and the command words of a line. The block never sees any of it: a host sends the words. -/

namespace Sys2Proof.Machine

/-! ### Expansion (R50) -/

/-- `CHECKSUM b0, ..., b(n-1)`: CRC.LD 0x0000, one CRC.STEP per byte, CRC.FIN (R50, R68). -/
def checksumCommands (data : List Byte) : List Instr :=
  .crcLd Config.crcInit :: (data.map .crcStep ++ [.crcFin])

/-- `FB.LOAD a, b0, ..., b(n-1)`: one FB.WR per byte at rising addresses (R50). -/
def fbLoadCommands : Nat → List Byte → List Instr
  | _, [] => []
  | a, b :: rest => .fbWr (BitVec.ofNat 8 a) b :: fbLoadCommands (a + 1) rest

/-- The real commands of a line; a pseudo-command has no encoding of its own (R50). -/
def expand : Listing → List Instr
  | .crcLd imm16 => [.crcLd (BitVec.ofNat 16 imm16)]
  | .crcStep byte => [.crcStep (BitVec.ofNat 8 byte)]
  | .crcRd => [.crcRd]
  | .crcFin => [.crcFin]
  | .fbWr addr data => [.fbWr (BitVec.ofNat 8 addr) (BitVec.ofNat 8 data)]
  | .fbRd addr => [.fbRd (BitVec.ofNat 8 addr)]
  | .fcCompact len => [.fcCompact (BitVec.ofNat 8 len)]
  | .crcClr => [.crcLd Config.crcInit]
  | .checksum bytes => checksumCommands (bytes.map (BitVec.ofNat 8))
  | .fbLoad a bytes => fbLoadCommands a (bytes.map (BitVec.ofNat 8))

/-- The command words of a line; a line with an operand out of range is an error of the listing and has none (R49). -/
def assemble (l : Listing) : Option (List CommandWord) :=
  if l.wellFormed then some ((expand l).map encode) else none

/-! ### Reading a line (R49). The details of blanks and digits are the model's (assumption 13). -/

/-- White space inside a line. -/
def isBlank (c : Char) : Bool := c == ' ' || c == '\t'

/-- The characters without white space at either end. -/
def trim (cs : List Char) : List Char :=
  ((cs.dropWhile isBlank).reverse.dropWhile isBlank).reverse

/-- The parts between commas; one part when there is none. -/
def splitCommas : List Char → List (List Char)
  | [] => [[]]
  | c :: rest =>
    match splitCommas rest with
    | [] => [[]]
    | part :: parts => if c = ',' then [] :: part :: parts else (c :: part) :: parts

/-- The value of a digit of C notation in the given base. -/
def digit (base : Nat) (c : Char) : Option Nat :=
  let v :=
    if '0' ≤ c ∧ c ≤ '9' then c.toNat - 48
    else if 'A' ≤ c ∧ c ≤ 'F' then c.toNat - 55
    else if 'a' ≤ c ∧ c ≤ 'f' then c.toNat - 87
    else base
  if v < base then some v else none

/-- A run of digits, most significant first, after those that gave `acc`. -/
def digits (base : Nat) : Nat → List Char → Option Nat
  | acc, [] => some acc
  | acc, c :: rest =>
    match digit base c with
    | some d => digits base (acc * base + d) rest
    | none => none

/-- A number in C notation, "`0x1F` or `31`" (R49). -/
def number : List Char → Option Nat
  | [] => none
  | ['0'] => some 0
  | '0' :: x :: d :: rest => if x = 'x' ∨ x = 'X' then digits 16 0 (d :: rest) else none
  | '0' :: _ => none
  | c :: rest => digits 10 0 (c :: rest)

/-- The numbers of a list of operand texts, when all of them are numbers. -/
def numbers : List (List Char) → Option (List Nat)
  | [] => some []
  | cs :: rest =>
    match number (trim cs), numbers rest with
    | some n, some ns => some (n :: ns)
    | _, _ => none

/-- The operands of a line: numbers separated by commas, or nothing at all. -/
def operands (cs : List Char) : Option (List Nat) :=
  match trim cs with
  | [] => some []
  | text => numbers (splitCommas text)

/-- The line of a mnemonic, written as its characters, and its operands. -/
def listingOf : List Char → List Nat → Option Listing
  | ['C', 'R', 'C', '.', 'L', 'D'], [imm16] => some (.crcLd imm16)
  | ['C', 'R', 'C', '.', 'S', 'T', 'E', 'P'], [byte] => some (.crcStep byte)
  | ['C', 'R', 'C', '.', 'R', 'D'], [] => some .crcRd
  | ['C', 'R', 'C', '.', 'F', 'I', 'N'], [] => some .crcFin
  | ['F', 'B', '.', 'W', 'R'], [addr, data] => some (.fbWr addr data)
  | ['F', 'B', '.', 'R', 'D'], [addr] => some (.fbRd addr)
  | ['F', 'C', '.', 'C', 'O', 'M', 'P', 'A', 'C', 'T'], [len] => some (.fcCompact len)
  | ['C', 'R', 'C', '.', 'C', 'L', 'R'], [] => some .crcClr
  | ['C', 'H', 'E', 'C', 'K', 'S', 'U', 'M'], bytes => some (.checksum bytes)
  | ['F', 'B', '.', 'L', 'O', 'A', 'D'], a :: bytes => some (.fbLoad a bytes)
  | _, _ => none

/-- One line of a listing: `none` when it is not of the syntax, `some none` when it holds a comment or nothing, else its
command or pseudo-command (R49). -/
def parseLine (cs : List Char) : Option (Option Listing) :=
  let text := trim (cs.takeWhile (· ≠ ';'))
  let mnemonic := text.takeWhile fun c => !isBlank c
  match mnemonic with
  | [] => some none
  | _ =>
    match operands (text.drop mnemonic.length) with
    | none => none
    | some ns => (listingOf mnemonic ns).map some

end Sys2Proof.Machine
end

