-- ==== Sys2Proof/Safety.lean ====
section
/-! DEFINITION. What holds of the machine at every step. -/

namespace Sys2Proof.Machine

/-- The invariant of the machine: `FB` keeps its canonical form, all of it inside the 256 cells of R12, and a response
on the port is one that R47 and R100 let the block give (status 3 is never given). No invariant relates `CRC` to `FB` or
one byte of `FB` to another (R21). -/
structure State.Inv (s : State) : Prop where
  fb_wf : s.fb.wf = true
  rsp_legal : ∀ r, s.rsp = some r → r.legal = true

/-- `k` steps, stopping at the first fault or refusal. -/
def run : Nat → State → Host.Outcome State Fault Refusal
  | 0, s => .next s
  | k + 1, s =>
    match step s with
    | .next t => run k t
    | .fault r => .fault r
    | .refused r => .refused r

/-- A step that a run may take: it ends in a next state, never in a fault or a refusal (R7: "`step` is total"). -/
def SafeStep (s : State) : Prop := ∃ t, step s = .next t

end Sys2Proof.Machine
end

