-- ==== Sys2Proof/Certificates/Slice0/Obligations.lean ====
section
/-! DEFINITION. The statements for the provers. Each docstring names the rule it formalises. A free value of Config
(`freeByte`, `freeHalf`) has no value that can be proved, so a statement that names one says only that the spec leaves
that value open. -/

open Sys2Proof Sys2Proof.Machine

/-! ### Encoding -/

/-- R43: a word selects a row of the table exactly when it decodes to that row's command, with the operands the row
names; the rows are disjoint. -/
def Obligations.DecodeSelectsTheTableRow : Prop :=
  (∀ cw : CommandWord,
    (∀ v, decode cw = .ok (.crcLd v) ↔ cw &&& 0xFF0000 = 0x110000 ∧ v = imm16 cw) ∧
    (∀ b, decode cw = .ok (.crcStep b) ↔ cw &&& 0xFFFF00 = 0x120000 ∧ b = lo8 cw) ∧
    (decode cw = .ok .crcRd ↔ cw &&& 0xFFFFFF = 0x130000) ∧
    (decode cw = .ok .crcFin ↔ cw &&& 0xFFFFFF = 0x140000) ∧
    (∀ a d, decode cw = .ok (.fbWr a d) ↔ cw &&& 0xFF0000 = 0x210000 ∧ a = hi8 cw ∧ d = lo8 cw) ∧
    (∀ a, decode cw = .ok (.fbRd a) ↔ cw &&& 0xFF00FF = 0x220000 ∧ a = hi8 cw) ∧
    (∀ l, decode cw = .ok (.fcCompact l) ↔ cw &&& 0xFFFF00 = 0x230000 ∧ l = lo8 cw)) ∧
  (∀ cw : CommandWord, opcodeTable.Pairwise fun r r' => ¬ (r.selects cw = true ∧ r'.selects cw = true))

/-- Decoding and encoding agree (from R42, R43, R44): a word decodes to a command exactly when it is that command's
word, so no bit of an encoding is dropped, and each command has one word. -/
def Obligations.DecodeAndEncodeAgree : Prop :=
  ∀ (cw : CommandWord) (i : Instr), decode cw = .ok i ↔ cw = encode i

/-- R45: of the 2^24 words 131842 are legal, and every other word raises IllegalCommand with no change of state. -/
def Obligations.LegalWordsAreCounted : Prop :=
  Nat.card { cw : CommandWord // wellFormedWord cw = true } = 131842 ∧
  (∀ cw : CommandWord, wellFormedWord cw = true ↔ ∃ i, decode cw = .ok i) ∧
  ∀ (cw : CommandWord) (s : State), wellFormedWord cw = false →
    execute cw s = .next { s with rsp := some ⟨2, (op cw).setWidth 16⟩ }

/-- A sanity check of the decoder on words written out from the spec's encoding examples (30_encoding.md section 9). -/
def Obligations.ExampleWordsDecode : Prop :=
  decode 0b000100011010101111001101 = .ok (.crcLd 0xABCD) ∧
  decode 0b000100100000000000110001 = .ok (.crcStep 0x31) ∧
  decode 0b000100110000000000000000 = .ok .crcRd ∧
  decode 0b000101000000000000000000 = .ok .crcFin ∧
  decode 0b001000010000101011000011 = .ok (.fbWr 0x0A 0xC3) ∧
  decode 0b001000100000101000000000 = .ok (.fbRd 0x0A) ∧
  decode 0b001000110000000000011110 = .ok (.fcCompact 30) ∧
  decode 0b000100100000000100110001 = .error .mustBeZeroBitSet ∧
  decode 0b001000100000101000000001 = .error .mustBeZeroBitSet ∧
  decode 0b000000000000000000000000 = .error .unknownOp ∧
  decode 0b111111111111111111111111 = .error .unknownOp

/-! ### The CRC unit -/

/-- R61: one bit step, bit by bit: `new[0] = t and POLY[0]`, `new[i] = r[i-1] xor (t and POLY[i])`, for every
polynomial; with `POLY = 0x8005` the feedback enters at bits 15, 2 and 0. -/
def Obligations.CrcBitIsTheShiftRegisterStep : Prop :=
  ∀ (poly r : Half) (d : Bool),
    (crcBit poly r d = if (r.getLsbD 15 ^^ d) = true then (r <<< 1) ^^^ poly else r <<< 1) ∧
    ((crcBit poly r d).getLsbD 0 = ((r.getLsbD 15 ^^ d) && poly.getLsbD 0)) ∧
    (∀ i, 1 ≤ i → i ≤ 15 →
      (crcBit poly r d).getLsbD i = (r.getLsbD (i - 1) ^^ ((r.getLsbD 15 ^^ d) && poly.getLsbD i))) ∧
    ∀ i, (0x8005 : Half).getLsbD i = true ↔ i = 15 ∨ i = 2 ∨ i = 0

/-- R62: eight bit steps with the bits of the byte from 7 down to 0; the source's form with a shifting copy of the byte
is equal to it for every polynomial, register and byte; after `k` shifts bit 7 of the copy is bit `7 - k` of the byte,
whatever width of 8 bits or more the copy is kept to. -/
def Obligations.CrcStepIsTheSourceLoop : Prop :=
  ∀ (poly r : Half) (b : Byte),
    crcStep poly r b =
      crcBit poly (crcBit poly (crcBit poly (crcBit poly (crcBit poly (crcBit poly (crcBit poly (crcBit poly r
        (b.getLsbD 7)) (b.getLsbD 6)) (b.getLsbD 5)) (b.getLsbD 4)) (b.getLsbD 3)) (b.getLsbD 2)) (b.getLsbD 1))
        (b.getLsbD 0) ∧
    crcStepRef poly r b = crcStep poly r b ∧
    ∀ w k : Nat, 8 ≤ w → k < 8 → (b.setWidth w <<< k).getLsbD 7 = b.getLsbD (7 - k)

/-- 40_crc.md section 7 property 4: the bit step and the byte step are linear over XOR, for every polynomial. -/
def Obligations.CrcStepIsLinear : Prop :=
  ∀ (poly r r' : Half),
    (∀ d d' : Bool, crcBit poly (r ^^^ r') (d ^^ d') = crcBit poly r d ^^^ crcBit poly r' d') ∧
    (∀ b b' : Byte, crcStep poly (r ^^^ r') (b ^^^ b') = crcStep poly r b ^^^ crcStep poly r' b')

/-- 40_crc.md section 7 property 5: the byte step is one lookup in a table of 256 entries derived from it, for every
polynomial. -/
def Obligations.CrcStepHasATableForm : Prop :=
  ∀ (poly r : Half) (b : Byte),
    crcStep poly r b = (r <<< 8) ^^^ crcStep poly 0 (highByte r ^^^ b)

/-- 40_crc.md section 7 property 7: stepping a checksum's own two bytes, high byte first, from the register that the
checksum finished, arrives at a value that does not depend on the data, for every polynomial. -/
def Obligations.ChecksumResidueIsConstant : Prop :=
  ∀ (poly : Half) (data : List Byte),
    crcStep poly (crcStep poly (not16 (checksum poly data)) (highByte (checksum poly data)))
        (lowByte (checksum poly data))
      = crcStep poly (crcStep poly 0x0000 0xFF) 0xFF

/-- R64: CRC.LD loads the register and changes nothing else; every operand value is legal. -/
def Obligations.CrcLdLoadsTheRegister : Prop :=
  ∀ (v : Half) (s : State),
    decode ((0x110000 : CommandWord) ||| v.setWidth 24) = .ok (.crcLd v) ∧
    exec (.crcLd v) s = .next { s with crc := v, rsp := some ⟨0, 0x0000⟩ }

/-- R65: CRC.STEP applies one input byte, returns the new register, and changes nothing else; a word with `cw[15:8]` not
zero is not CRC.STEP; with the rule's corner cases, which depend on `POLY = 0x8005` where a number says so. -/
def Obligations.CrcStepAppliesOneByte : Prop :=
  (∀ (b : Byte) (s : State),
    decode ((0x120000 : CommandWord) ||| b.setWidth 24) = .ok (.crcStep b) ∧
    exec (.crcStep b) s
      = .next { s with crc := crcStep Config.poly s.crc b, rsp := some ⟨0, crcStep Config.poly s.crc b⟩ }) ∧
  (∀ (cw : CommandWord) (s : State), op cw = 0x12 → hi8 cw ≠ 0 →
    execute cw s = .next { s with rsp := some ⟨2, 0x0012⟩ }) ∧
  (∀ r : Half, crcStep Config.poly r (highByte r) = (lowByte r).setWidth 16 <<< 8) ∧
  crcStep Config.poly 0x0000 0x00 = 0x0000 ∧
  crcStep Config.poly 0x0000 0x01 = Config.poly ∧ Config.poly = 0x8005 ∧
  crcStep Config.poly 0xFFFF 0xFF = 0xFF00 ∧
  crcStep Config.poly 0x8000 0x80 = 0x0000 ∧
  crcStep Config.poly 0xFFFF 0x00 = 0xFD02 ∧
  crcStep Config.poly 0x1234 0x56 = 0x3598

/-- R66: CRC.RD returns the register and changes nothing; its one word is 0x130000. -/
def Obligations.CrcRdReturnsTheRegister : Prop :=
  (∀ s : State, exec .crcRd s = .next { s with rsp := some ⟨0, s.crc⟩ }) ∧
  decode 0x130000 = .ok .crcRd ∧
  ∀ (cw : CommandWord) (s : State), op cw = 0x13 → cw ≠ 0x130000 →
    execute cw s = .next { s with rsp := some ⟨2, 0x0013⟩ }

/-- R67: CRC.FIN returns the complement of the register and does not store it, so that a second CRC.FIN returns the same
value; its one word is 0x140000. -/
def Obligations.CrcFinReturnsTheComplement : Prop :=
  (∀ s : State, exec .crcFin s = .next { s with rsp := some ⟨0, s.crc ^^^ 0xFFFF⟩ }) ∧
  decode 0x140000 = .ok .crcFin ∧
  ∀ (cw : CommandWord) (s : State), op cw = 0x14 → cw ≠ 0x140000 →
    execute cw s = .next { s with rsp := some ⟨2, 0x0014⟩ }

/-- R68: the pseudo-command CHECKSUM (R50), run by the machine from any state, answers in its last response the checksum
of the bytes, whatever the register held; afterwards the register holds the uncomplemented value and `FB` is
untouched. For no bytes the value is 0xFFFF. -/
def Obligations.ChecksumCommandsComputeTheChecksum : Prop :=
  (∀ (data : List Byte) (s : State),
    s.inputs = (checksumCommands data).map (fun i => HostInput.command (encode i)) →
    run (data.length + 2) s
      = .next { s with
          crc := not16 (checksum Config.poly data)
          inputs := []
          rsp := some ⟨0, checksum Config.poly data⟩ }) ∧
  (∀ data : List Byte, checksum Config.poly data
      = (data.foldl (crcStep Config.poly) 0x0000) ^^^ 0xFFFF) ∧
  checksum Config.poly [] = 0xFFFF

/-! ### The frame unit -/

/-- R84: FB.WR stores one byte and changes nothing else: every other cell, `CRC` and the rest stand; every address and
every data value is legal; writing the value a cell already holds changes nothing. The premise is the invariant. -/
def Obligations.FbWrStoresOneByte : Prop :=
  ∀ (addr data : Byte) (s : State), s.Inv →
    decode ((0x210000 : CommandWord) ||| (addr.setWidth 24 <<< 8) ||| data.setWidth 24) = .ok (.fbWr addr data) ∧
    ∃ t, exec (.fbWr addr data) s = .next t ∧
      t.rsp = some ⟨0, 0x0000⟩ ∧
      t.fb.read (effectiveAddr addr) = data ∧
      (∀ a, a ≠ effectiveAddr addr → t.fb.read a = s.fb.read a) ∧
      (s.fb.read (effectiveAddr addr) = data → t.fb = s.fb) ∧
      t.crc = s.crc ∧ t.inputs = s.inputs ∧ t.draws = s.draws

/-- R86: FB.RD returns one byte, zero-extended, and changes nothing; a word with `cw[7:0]` not zero raises
IllegalCommand. -/
def Obligations.FbRdReturnsOneByte : Prop :=
  (∀ (addr : Byte) (s : State),
    decode ((0x220000 : CommandWord) ||| (addr.setWidth 24 <<< 8)) = .ok (.fbRd addr) ∧
    exec (.fbRd addr) s = .next { s with rsp := some ⟨0, (s.fb.read addr.toNat).setWidth 16⟩ }) ∧
  ∀ (cw : CommandWord) (s : State), op cw = 0x22 → lo8 cw ≠ 0 →
    execute cw s = .next { s with rsp := some ⟨2, 0x0022⟩ }

/-- R87: the copy primitive is a snapshot copy; a copy of nothing does nothing; with `dst < src` the ascending
byte-by-byte copy gives the same buffer, and the descending one, when `n > src - dst`, does not for some buffer. -/
def Obligations.CopyIsASnapshot : Prop :=
  (∀ (m : Memory) (src dst n : Nat), m.wf = true → src + n ≤ 256 → dst + n ≤ 256 →
    (∀ i, i < n → (copy m src dst n).read (dst + i) = m.read (src + i)) ∧
    (∀ a, a < dst ∨ dst + n ≤ a → (copy m src dst n).read a = m.read a) ∧
    copy m src dst 0 = m ∧
    (dst < src → copyAscending m src dst n = copy m src dst n)) ∧
  (∀ src dst n : Nat, dst < src → src - dst < n → src + n ≤ 256 →
    ∃ m : Memory, m.wf = true ∧ copyDescending m src dst n ≠ copy m src dst n)

/-- From R88 (with R9): FC.COMPACT with a legal length is the loop of the rule, started with the cursors at 12 and 10,
run to its end, then the tail, then the response; each kind of iteration does what the rule's pseudocode says. Three
clauses are the model's choices and no rule's: the tail as free bytes at the counter and the counter's advance (DESIGN
CHOICE, assumption 4); an iteration at `rem = 0` that changes nothing (DEDUCED, assumption 12). -/
def Obligations.CompactRunsTheLoop : Prop :=
  (∀ (len : Byte) (s : State), 12 ≤ len.toNat →
    (compactLoop s.fb len.toNat).rem = 0 ∧
    exec (.fcCompact len) s = .next { s with
      fb := (compactLoop s.fb len.toNat).fb.writeBytes (compactLoop s.fb len.toNat).written
        (s.freeBytes (len.toNat - (compactLoop s.fb len.toNat).written))
      rsp := some ⟨0, BitVec.ofNat 16 (compactLoop s.fb len.toNat).written⟩
      draws := s.draws + (len.toNat - (compactLoop s.fb len.toNat).written) }) ∧
  (∀ (m : Memory) (l : Nat), compactStart m l = { fb := m, rd := 12, wr := 10, rem := l - 12, written := 10 }) ∧
  (∀ c : Compaction, c.rem = 0 → compactIter c = c) ∧
  (∀ c : Compaction, 18 ≤ c.rem → compactIter c
    = { fb := copy c.fb c.rd c.wr 16, rd := c.rd + 18, wr := c.wr + 16, rem := c.rem - 18,
        written := c.written + 16 }) ∧
  (∀ c : Compaction, 1 ≤ c.rem → c.rem ≤ 17 → compactIter c
    = { fb := copy c.fb c.rd c.wr (satSub c.rem 2), rd := c.rd, wr := c.wr + satSub c.rem 2, rem := 0,
        written := c.written + satSub c.rem 2 })

/-- From R90 and R92: FC.COMPACT with a legal length answers the new length and leaves the header, the packed groups, a
tail of free values and everything from `L` on as it was; `CRC` and the rest stand. That the tail cells hold the next
free values of the counter, and that the counter moves past them, so that each execution draws afresh, is the model's
form of R90 and no rule's (DESIGN CHOICE, assumption 4). A length below 12 and a word with `cw[15:8]`
not zero raise their errors with nothing written. -/
def Obligations.CompactStripsAndRepacks : Prop :=
  (∀ (len : Byte) (s : State), s.Inv → 12 ≤ len.toNat →
    ∃ t, exec (.fcCompact len) s = .next t ∧
      t.rsp = some ⟨0, BitVec.ofNat 16 (newLen len.toNat)⟩ ∧
      (∀ j, j < 10 → t.fb.read j = s.fb.read j) ∧
      (∀ j, 10 ≤ j → j < newLen len.toNat →
        t.fb.read j = s.fb.read (12 + 18 * ((j - 10) / 16) + (j - 10) % 16) ∧
        t.fb.read j = s.fb.read (j + 2 + 2 * ((j - 10) / 16)) ∧
        12 ≤ j + 2 + 2 * ((j - 10) / 16) ∧ j + 2 + 2 * ((j - 10) / 16) < len.toNat - 2) ∧
      (∀ j, newLen len.toNat ≤ j → j < len.toNat →
        t.fb.read j = Config.freeByte (s.draws + (j - newLen len.toNat))) ∧
      t.draws = s.draws + (len.toNat - newLen len.toNat) ∧
      (∀ j, len.toNat ≤ j → t.fb.read j = s.fb.read j) ∧
      t.crc = s.crc ∧ t.inputs = s.inputs) ∧
  (∀ len : Byte, decode ((0x230000 : CommandWord) ||| len.setWidth 24) = .ok (.fcCompact len)) ∧
  (∀ (len : Byte) (s : State), len.toNat < 12 →
    exec (.fcCompact len) s = .next { s with rsp := some ⟨1, len.setWidth 16⟩ }) ∧
  ∀ (cw : CommandWord) (s : State), op cw = 0x23 → hi8 cw ≠ 0 →
    execute cw s = .next { s with rsp := some ⟨2, 0x0023⟩ }

/-- R91: the new length in closed form, the bytes removed, and where it stands still as the length grows; in every state,
the loop of R88 answers it. -/
def Obligations.CompactReturnsTheNewLength : Prop :=
  (∀ (len : Byte) (s : State), 12 ≤ len.toNat →
    ∃ t, exec (.fcCompact len) s = .next t ∧
      t.rsp = some ⟨0, BitVec.ofNat 16
        (10 + 16 * ((len.toNat - 12) / 18)
          + if 2 ≤ (len.toNat - 12) % 18 then (len.toNat - 12) % 18 - 2 else 0)⟩) ∧
  (∀ l : Nat, 12 ≤ l → l ≤ 255 →
    newLen l = 10 + 16 * ((l - 12) / 18) + (if 2 ≤ (l - 12) % 18 then (l - 12) % 18 - 2 else 0) ∧
    l - newLen l = 2 + 2 * ((l - 12) / 18) + min ((l - 12) % 18) 2 ∧
    newLen l ≤ l - 2 ∧ 2 ≤ l - newLen l ∧ l - newLen l ≤ 30 ∧
    (12 < l → newLen (l - 1) ≤ newLen l ∧
      (newLen l = newLen (l - 1) ↔ (l - 12) % 18 = 1 ∨ (l - 12) % 18 = 2)))

/-- R93: the cursors at the start of loop iteration `k`; the gap is `2 + 2k`, a full group's copy overlaps its source
exactly in iterations 0 to 6, and `wr` and `written` never differ. -/
def Obligations.CompactLoopCursors : Prop :=
  ∀ (m : Memory) (l k : Nat), 12 ≤ l → l ≤ 255 →
    (compactIter^[k] (compactStart m l)).wr = (compactIter^[k] (compactStart m l)).written ∧
    (18 * k < l - 12 →
      (compactIter^[k] (compactStart m l)).rd = 12 + 18 * k ∧
      (compactIter^[k] (compactStart m l)).wr = 10 + 16 * k ∧
      (compactIter^[k] (compactStart m l)).rem = l - 12 - 18 * k ∧
      (compactIter^[k] (compactStart m l)).rd - (compactIter^[k] (compactStart m l)).wr = 2 + 2 * k ∧
      (compactIter^[k] (compactStart m l)).rd + (compactIter^[k] (compactStart m l)).rem = l ∧
      ((compactIter^[k] (compactStart m l)).rd < (compactIter^[k] (compactStart m l)).wr + 16 ↔ k ≤ 6))

/-- R94: the loop runs `q + (1 if r > 0 else 0)` times, at most 14, and then has ended; no cursor leaves 8 bits; every
source index is at most `L - 3`, every destination index at most `newLen - 1`. -/
def Obligations.CompactLoopBounds : Prop :=
  ∀ (m : Memory) (l : Nat), 12 ≤ l → l ≤ 255 →
    (∀ k, 0 < (compactIter^[k] (compactStart m l)).rem
      ↔ k < (l - 12) / 18 + (if 0 < (l - 12) % 18 then 1 else 0)) ∧
    (l - 12) / 18 + (if 0 < (l - 12) % 18 then 1 else 0) ≤ 14 ∧
    ((l - 12) / 18 + (if 0 < (l - 12) % 18 then 1 else 0) = 14 ↔ 247 ≤ l) ∧
    (compactLoop m l).rem = 0 ∧
    (∀ k, (compactIter^[k] (compactStart m l)).rd ≤ 246 ∧
      (compactIter^[k] (compactStart m l)).wr ≤ 225 ∧
      (compactIter^[k] (compactStart m l)).written ≤ 225 ∧
      (compactIter^[k] (compactStart m l)).rem ≤ 243) ∧
    (∀ k n, 0 < (compactIter^[k] (compactStart m l)).rem →
      n = (if 18 ≤ (compactIter^[k] (compactStart m l)).rem then 16
           else satSub (compactIter^[k] (compactStart m l)).rem 2) →
      n ≤ 16 ∧
      ∀ i, i < n →
        (compactIter^[k] (compactStart m l)).rd + i ≤ l - 3 ∧ l - 3 ≤ 252 ∧
        (compactIter^[k] (compactStart m l)).wr + i ≤ newLen l - 1 ∧ newLen l - 1 ≤ 224)

/-- From R95: FC.COMPACT has no fixed point: the new length is below the length, and running it again on the new length,
where that is legal, answers a smaller one still; 30 gives 26, and 26 gives 22. -/
def Obligations.CompactIsAOneWayTransform : Prop :=
  (∀ (len : Byte) (s : State), 12 ≤ len.toNat →
    ∃ t r, exec (.fcCompact len) s = .next t ∧ t.rsp = some r ∧ r.status = 0 ∧
      r.value.toNat < len.toNat ∧
      (12 ≤ r.value.toNat →
        ∃ t' r', exec (.fcCompact (lowByte r.value)) t = .next t' ∧ t'.rsp = some r' ∧ r'.status = 0 ∧
          r'.value.toNat < r.value.toNat)) ∧
  newLen 30 = 26 ∧ newLen 26 = 22

/-- From R123 (and R80, R96): which bytes are kept depends on the length alone, and the compacted frame depends only on
the header and the source cells: two buffers that agree there give compacted frames that agree, whatever else they, the
registers and the draws hold. -/
def Obligations.CompactReadsOnlyItsSourceCells : Prop :=
  ∀ (len : Byte) (s s' : State), s.Inv → s'.Inv → 12 ≤ len.toNat →
    (∀ j, j < 10 → s.fb.read j = s'.fb.read j) →
    (∀ j, 10 ≤ j → j < newLen len.toNat → s.fb.read (sourceIndex j) = s'.fb.read (sourceIndex j)) →
    ∃ t t', exec (.fcCompact len) s = .next t ∧ exec (.fcCompact len) s' = .next t' ∧ t.rsp = t'.rsp ∧
      ∀ j, j < newLen len.toNat → t.fb.read j = t'.fb.read j

/-- From R50: FB.LOAD, run by the machine, puts each byte at its index and leaves every other cell and `CRC` as they
were. -/
def Obligations.FbLoadFillsTheFrame : Prop :=
  ∀ (a : Nat) (data : List Byte) (s : State), s.Inv → a + data.length ≤ 256 →
    s.inputs = (fbLoadCommands a data).map (fun i => HostInput.command (encode i)) →
    ∃ t, run data.length s = .next t ∧
      (∀ i (h : i < data.length), t.fb.read (a + i) = data[i]) ∧
      (∀ j, j < a ∨ a + data.length ≤ j → t.fb.read j = s.fb.read j) ∧
      t.crc = s.crc ∧ t.inputs = [] ∧ t.draws = s.draws

/-! ### The register, the buffer and the two units -/

/-- R11: which command writes `CRC`, and with what; which does not read it: with another value in `CRC` it gives the same
response and the same rest of the state. -/
def Obligations.CrcAccessByCommand : Prop :=
  (∀ (cw : CommandWord) (s : State), ∃ t, execute cw s = .next t ∧
    (∀ v, decode cw = .ok (.crcLd v) → t.crc = v) ∧
    (∀ b, decode cw = .ok (.crcStep b) → t.crc = crcStep Config.poly s.crc b) ∧
    ((∀ v, decode cw ≠ .ok (.crcLd v)) → (∀ b, decode cw ≠ .ok (.crcStep b)) → t.crc = s.crc)) ∧
  (∀ (imm v : Half) (s : State), exec (.crcLd imm) { s with crc := v } = exec (.crcLd imm) s) ∧
  (∀ (cw : CommandWord) (s t : State) (v : Half),
    (∀ i, decode cw = .ok i → i.isCrcUnit = false) →
    execute cw s = .next t → execute cw { s with crc := v } = .next { t with crc := v })

/-- From R25 and R29: only FB.WR and FC.COMPACT write `FB`; every other word, an illegal one included, leaves the buffer
and the draws as they were, and FB.WR and FC.COMPACT leave every cell but theirs. -/
def Obligations.BufferAccessByCommand : Prop :=
  ∀ (cw : CommandWord) (s : State), s.Inv → ∃ t, execute cw s = .next t ∧ t.inputs = s.inputs ∧
    ((∀ a d, decode cw ≠ .ok (.fbWr a d)) → (∀ l, decode cw ≠ .ok (.fcCompact l)) →
      t.fb = s.fb ∧ t.draws = s.draws) ∧
    (∀ a d, decode cw = .ok (.fbWr a d) →
      ∀ j, j ≠ effectiveAddr a → t.fb.read j = s.fb.read j) ∧
    (∀ l, decode cw = .ok (.fcCompact l) →
      ∀ j, j < 10 ∨ l.toNat ≤ j → t.fb.read j = s.fb.read j)

/-- R19: no CRC command reads or writes `FB`, no frame command reads or writes `CRC`, and a CRC command and a frame
command commute: the same final state and the same two responses in either order. -/
def Obligations.TheTwoUnitsAreIndependent : Prop :=
  ∀ (a b : Instr) (s : State), a.isCrcUnit = true → b.isCrcUnit = false →
    (∀ m : Memory, ∃ t, exec a s = .next t ∧ t.fb = s.fb ∧ exec a { s with fb := m } = .next { t with fb := m }) ∧
    (∀ v : Half, ∃ t, exec b s = .next t ∧ t.crc = s.crc ∧ exec b { s with crc := v } = .next { t with crc := v }) ∧
    ∃ sa sb sab sba, exec a s = .next sa ∧ exec b s = .next sb ∧
      exec b sa = .next sab ∧ exec a sb = .next sba ∧
      sab.crc = sba.crc ∧ sab.fb = sba.fb ∧ sab.inputs = sba.inputs ∧ sab.draws = sba.draws ∧
      sab.rsp = sb.rsp ∧ sba.rsp = sa.rsp

/-- R21: every state is legal and reachable: from any state that meets the invariant, `CRC.LD v` followed by 256 FB.WR
commands (cells 0 to 255 in order) makes `CRC = v` and `FB` any canonical content. -/
def Obligations.EveryContentIsReachable : Prop :=
  ∀ (s : State) (v : Half) (m : Memory), s.Inv → m.wf = true →
    (fbLoadCommands 0 (m.readBytes 0 256)).length = 256 ∧
    ∃ t : State,
      run 257 { s with
          inputs := (.crcLd v :: fbLoadCommands 0 (m.readBytes 0 256)).map fun i => HostInput.command (encode i) }
        = .next t ∧
      t.crc = v ∧ t.fb = m ∧ t.inputs = []

/-- From R31: a read returns the value of the latest write of its location: between the write and the read any words may
run that write it no more. -/
def Obligations.ReadReturnsTheLatestWrite : Prop :=
  ∀ (s : State) (words : List CommandWord), s.Inv →
    (∀ a d : Byte,
      (∀ cw ∈ words, ∀ d', decode cw ≠ .ok (.fbWr a d')) →
      (∀ cw ∈ words, ∀ l, decode cw = .ok (.fcCompact l) → a.toNat < 10 ∨ l.toNat ≤ a.toNat) →
      ∃ t, run (words.length + 2)
          { s with inputs := (encode (.fbWr a d) :: words ++ [encode (.fbRd a)]).map HostInput.command } = .next t ∧
        t.rsp = some ⟨0, d.setWidth 16⟩) ∧
    (∀ v : Half,
      (∀ cw ∈ words, ∀ v', decode cw ≠ .ok (.crcLd v')) →
      (∀ cw ∈ words, ∀ b, decode cw ≠ .ok (.crcStep b)) →
      ∃ t, run (words.length + 2)
          { s with inputs := (encode (.crcLd v) :: words ++ [encode .crcRd]).map HostInput.command } = .next t ∧
        t.rsp = some ⟨0, v⟩)

/-! ### Responses and errors -/

/-- R48: the value of the response when a command ends with status OK. -/
def Obligations.OkResponseValues : Prop :=
  ∀ (cw : CommandWord) (s : State), ∃ t, execute cw s = .next t ∧
    (∀ v, decode cw = .ok (.crcLd v) → t.rsp = some ⟨0, 0x0000⟩) ∧
    (∀ b, decode cw = .ok (.crcStep b) → t.rsp = some ⟨0, crcStep Config.poly s.crc b⟩ ∧
      t.rsp = some ⟨0, t.crc⟩) ∧
    (decode cw = .ok .crcRd → t.rsp = some ⟨0, s.crc⟩) ∧
    (decode cw = .ok .crcFin → t.rsp = some ⟨0, s.crc ^^^ 0xFFFF⟩) ∧
    (∀ a d, decode cw = .ok (.fbWr a d) → t.rsp = some ⟨0, 0x0000⟩) ∧
    (∀ a, decode cw = .ok (.fbRd a) → t.rsp = some ⟨0, (s.fb.read a.toNat).setWidth 16⟩) ∧
    (∀ l, decode cw = .ok (.fcCompact l) → 12 ≤ l.toNat →
      t.rsp = some ⟨0, BitVec.ofNat 16 (newLen l.toNat)⟩ ∧ 10 ≤ newLen l.toNat ∧ newLen l.toNat ≤ 225)

/-- R100 and R103: there are exactly two exceptions, each with its condition, its status code and its recorded value;
when one is raised the response is all that changes, and status 3 is never given. -/
def Obligations.ErrorsReportAndWriteNothing : Prop :=
  ∀ (cw : CommandWord) (s : State), ∃ t r, execute cw s = .next t ∧ t.rsp = some r ∧
    (r.status = 1 ↔ ∃ len, decode cw = .ok (.fcCompact len) ∧ len.toNat < 12) ∧
    (r.status = 2 ↔ ∀ row ∈ opcodeTable, cw &&& row.maskBits ≠ row.matchBits) ∧
    r.status ≠ 3 ∧
    (∀ len, decode cw = .ok (.fcCompact len) → len.toNat < 12 → r.value = len.setWidth 16) ∧
    (r.status = 2 → r.value = (op cw).setWidth 16) ∧
    (r.status ≠ 0 → t = { s with rsp := some r })

/-- R101: FC.COMPACT with a length of 0 to 11 raises InvalidArgument: status 1, the length as the value, nothing else
changed; 12 is legal. -/
def Obligations.ShortLengthIsAnInvalidArgument : Prop :=
  (∀ (len : Byte) (s : State), len.toNat < 12 →
    execute ((0x230000 : CommandWord) ||| len.setWidth 24) s = .next { s with rsp := some ⟨1, len.setWidth 16⟩ }) ∧
  ∀ s : State, ∃ t, execute 0x23000C s = .next t ∧ t.rsp = some ⟨0, 0x000A⟩

/-- R102: a word that decodes to no command is not executed: status 2, its opcode byte as the value, nothing else
changed. -/
def Obligations.IllegalWordIsNotExecuted : Prop :=
  ∀ (cw : CommandWord) (s : State), (∀ i, decode cw ≠ .ok i) →
    execute cw s = .next { s with rsp := some ⟨2, (op cw).setWidth 16⟩ }

/-- R105: decoding comes first: a malformed FC.COMPACT word is IllegalCommand whatever its length bits are, and only a
well-formed one has its length checked. -/
def Obligations.DecodingComesBeforeTheLengthCheck : Prop :=
  (∀ (cw : CommandWord) (s : State), (∀ i, decode cw ≠ .ok i) →
    execute cw s = .next { s with rsp := some ⟨2, (op cw).setWidth 16⟩ }) ∧
  (∀ (cw : CommandWord) (s : State), op cw = 0x23 → hi8 cw ≠ 0 →
    execute cw s = .next { s with rsp := some ⟨2, 0x0023⟩ }) ∧
  (∀ (cw : CommandWord) (s : State), op cw = 0x23 → hi8 cw = 0 → (lo8 cw).toNat < 12 →
    execute cw s = .next { s with rsp := some ⟨1, (lo8 cw).setWidth 16⟩ }) ∧
  ∀ s : State, execute 0x230105 s = .next { s with rsp := some ⟨2, 0x0023⟩ } ∧
    execute 0x230005 s = .next { s with rsp := some ⟨1, 0x0005⟩ }

/-- R117: which command can raise what, by opcode byte. -/
def Obligations.WhichCommandRaisesWhat : Prop :=
  ∀ (cw : CommandWord) (s : State), ∃ t r, execute cw s = .next t ∧ t.rsp = some r ∧
    (op cw = 0x11 → r.status = 0) ∧
    (op cw = 0x12 → r.status ≠ 1 ∧ (r.status = 2 ↔ hi8 cw ≠ 0)) ∧
    (op cw = 0x13 → r.status ≠ 1 ∧ (r.status = 2 ↔ imm16 cw ≠ 0)) ∧
    (op cw = 0x14 → r.status ≠ 1 ∧ (r.status = 2 ↔ imm16 cw ≠ 0)) ∧
    (op cw = 0x21 → r.status = 0) ∧
    (op cw = 0x22 → r.status ≠ 1 ∧ (r.status = 2 ↔ lo8 cw ≠ 0)) ∧
    (op cw = 0x23 → (r.status = 1 ↔ hi8 cw = 0 ∧ (lo8 cw).toNat < 12) ∧ (r.status = 2 ↔ hi8 cw ≠ 0)) ∧
    ((∀ o ∈ [(0x11 : Byte), 0x12, 0x13, 0x14, 0x21, 0x22, 0x23], op cw ≠ o) → r.status = 2)

/-- R104: an error is not latched: after a word that raised one, every word is executed exactly as if the erroneous one
had not been sent. -/
def Obligations.ErrorsAreNotLatched : Prop :=
  ∀ (bad cw : CommandWord) (s : State),
    (∀ i, decode bad = .ok i → ∃ len, i = .fcCompact len ∧ len.toNat < 12) →
    ∃ t, execute bad s = .next t ∧ execute cw t = execute cw s

/-! ### The machine -/

/-- From R7 and R52: a step takes the word the host offers and runs the command it decodes to, on the state without that
word. That what the host offers is a list in State whose first entry a step takes (DESIGN CHOICE, assumption 5), and the
last clause, on `withFetchWord` and the table's number for a word (DESIGN CHOICE, assumptions 5 and 14), are the model's
and no rule's. -/
def Obligations.StepRunsTheDecodedCommand : Prop :=
  (∀ (s : State) (cw : CommandWord) (rest : List HostInput) (i : Instr),
    s.inputs = .command cw :: rest → decode cw = .ok i → step s = exec i { s with inputs := rest }) ∧
  (∀ (s : State) (cw : CommandWord) (rest : List HostInput),
    s.inputs = .command cw :: rest → (∀ i, decode cw ≠ .ok i) →
    step s = .next { s with inputs := rest, rsp := some ⟨2, (op cw).setWidth 16⟩ }) ∧
  ∀ (s : State) (w : CommandWord), step (s.withFetchWord 24 w.toNat) = execute w s

/-- From R7, R47, R52 and R133: every step ends in a next state; a step that takes a command gives exactly one response,
one the block may give (never status 3), and takes no other input. -/
def Obligations.EveryStepAnswers : Prop :=
  ∀ s : State, ∃ t, step s = .next t ∧ t.inputs = s.inputs.tail ∧
    ∀ cw rest, s.inputs = .command cw :: rest →
      ∃ r, t.rsp = some r ∧ r.legal = true ∧ r.status ≠ 3

/-- From R116, and the model's choices of assumptions 5 and 6: with nothing offered the block is idle: it holds `CRC` and
`FB` and gives no response. -/
def Obligations.IdleStepHoldsTheState : Prop :=
  ∀ s : State, s.inputs = [] → step s = .next { s with rsp := none }

/-- From R120 and R20, in the model's form of assumption 7: the `rst` input leaves no response pending and puts free
values into `CRC` and every cell of `FB`, other ones at every reset. -/
def Obligations.ResetInputLeavesUnspecifiedValues : Prop :=
  ∀ (s : State) (rest : List HostInput), s.inputs = .rst :: rest →
    ∃ t, step s = .next t ∧ t.rsp = none ∧ t.inputs = rest ∧ t.cmdReady = true ∧
      t.crc = Config.freeHalf s.draws ∧
      (∀ i, i < 256 → t.fb.read i = Config.freeByte (s.draws + 1 + i)) ∧
      t.draws = s.draws + 257

/-- From R120: right after reset no response is pending and no command is in execution, and (the model's choices,
assumptions 1, 2 and 4) `CRC`, every cell and the draws are zero. -/
def Obligations.ResetStateIsIdle : Prop :=
  State.reset.rsp = none ∧ State.reset.inputs = [] ∧ State.reset.cmdReady = true ∧
  State.reset.crc = 0 ∧ State.reset.draws = 0 ∧ ∀ a, State.reset.fb.read a = 0

/-- The state after reset meets the invariant (derived from R12, R47). -/
def Obligations.ResetMeetsTheInvariant : Prop := State.reset.Inv

/-- Every step keeps the invariant (derived from R12, R47, R94, R100): `FB` stays in its canonical form inside its 256
cells, also through the loop of FC.COMPACT and through a reset, and every response is one the block may give. -/
def Obligations.StepKeepsTheInvariant : Prop :=
  ∀ s t : State, s.Inv → step s = .next t → t.Inv

/-! ### The parameter -/

/-- From R5, R6 and R65: `POLY` is a parameter of the machine with default 0x8005. For every value of it CRC.STEP steps
with that value; a step depends on it in no other case; with the default it is the step of this hardware. The list of
the host's inputs is the model's (DESIGN CHOICE, assumption 5), and so is the number 0x8005 as far as the source goes
(UNVERIFIED, assumption 3). -/
def Obligations.EveryPolynomialHasItsMachine : Prop :=
  (∀ (p : Parameters) (byte : Byte) (s : State),
    execWith p (.crcStep byte) s
      = .next { s with crc := crcStep p.poly s.crc byte, rsp := some ⟨0, crcStep p.poly s.crc byte⟩ }) ∧
  (∀ (p : Parameters) (i : Instr) (s : State), (∀ byte, i ≠ .crcStep byte) → execWith p i s = exec i s) ∧
  (∀ (p : Parameters) (s : State) (cw : CommandWord) (rest : List HostInput) (i : Instr),
    s.inputs = .command cw :: rest → decode cw = .ok i → stepWith p s = execWith p i { s with inputs := rest }) ∧
  (∀ (p : Parameters) (s : State),
    (∀ cw rest byte, s.inputs = .command cw :: rest → decode cw ≠ .ok (.crcStep byte)) → stepWith p s = step s) ∧
  (∀ s : State, stepWith {} s = step s) ∧ ({} : Parameters).poly = 0x8005

/-- From R5 and R68: the pseudo-command CHECKSUM, run by the machine with any polynomial from any state, answers in its
last response the checksum for that polynomial; `CRC` then holds the uncomplemented value. The list of the host's
inputs is the model's (DESIGN CHOICE, assumption 5). -/
def Obligations.ChecksumForEveryPolynomial : Prop :=
  ∀ (p : Parameters) (data : List Byte) (s : State),
    s.inputs = (checksumCommands data).map (fun i => HostInput.command (encode i)) →
    runWith p (data.length + 2) s
      = .next { s with
          crc := not16 (checksum p.poly data)
          inputs := []
          rsp := some ⟨0, checksum p.poly data⟩ }
end

