-- ==== Sys2Proof/Laws/Encoding.lean ====
section
/-! SUPPORT. The fields of a command word and its formats: a word is its three bytes, and masking acts byte by byte. -/

namespace Sys2Proof

theorem getLsbD_formatAD (a b c : Byte) (i : Nat) :
    (formatAD a b c).getLsbD i
      = if i < 8 then c.getLsbD i else if i < 16 then b.getLsbD (i - 8) else a.getLsbD (i - 16) := by
  have hb : 8 ≤ i - 8 → b.getLsbD (i - 8) = false := BitVec.getLsbD_of_ge _ _
  have hc : 8 ≤ i → c.getLsbD i = false := BitVec.getLsbD_of_ge _ _
  have ha : 8 ≤ i - 16 → a.getLsbD (i - 16) = false := BitVec.getLsbD_of_ge _ _
  simp only [formatAD, BitVec.getLsbD_or, BitVec.getLsbD_shiftLeft, BitVec.getLsbD_setWidth]
  by_cases h1 : i < 8
  · simp [h1, show i < 16 by omega, show i < 24 by omega]
  · by_cases h2 : i < 16
    · simp [h1, h2, hc (by omega), show i < 24 by omega, show i - 8 < 24 by omega]
    · by_cases h3 : i < 24
      · simp [h1, h2, h3, hc (by omega), hb (by omega), show i - 16 < 24 by omega]
      · simp [h1, h2, h3, hc (by omega), ha (by omega)]

theorem op_formatAD (a b c : Byte) : op (formatAD a b c) = a := by
  apply BitVec.eq_of_getLsbD_eq
  intro i hi
  simp only [op, BitVec.getLsbD_extractLsb', hi, getLsbD_formatAD, decide_true, Bool.true_and,
    show ¬ 16 + i < 8 by omega, show ¬ 16 + i < 16 by omega, if_false, Nat.add_sub_cancel_left]

theorem hi8_formatAD (a b c : Byte) : hi8 (formatAD a b c) = b := by
  apply BitVec.eq_of_getLsbD_eq
  intro i hi
  simp [hi8, getLsbD_formatAD, hi]
  omega

theorem lo8_formatAD (a b c : Byte) : lo8 (formatAD a b c) = c := by
  apply BitVec.eq_of_getLsbD_eq
  intro i hi
  simp [lo8, getLsbD_formatAD, hi]

theorem formatAD_fields (cw : CommandWord) : formatAD (op cw) (hi8 cw) (lo8 cw) = cw := by
  apply BitVec.eq_of_getLsbD_eq
  intro i hi
  simp only [getLsbD_formatAD, op, hi8, lo8, BitVec.getLsbD_extractLsb']
  split
  · simp [*]
  · split
    · simp [show i - 8 < 8 by omega, show 8 + (i - 8) = i by omega]
    · simp [show i - 16 < 8 by omega, show 16 + (i - 16) = i by omega]

theorem and_formatAD (a b c x y z : Byte) :
    formatAD a b c &&& formatAD x y z = formatAD (a &&& x) (b &&& y) (c &&& z) := by
  apply BitVec.eq_of_getLsbD_eq
  intro i hi
  simp only [BitVec.getLsbD_and, getLsbD_formatAD]
  split
  · rfl
  · split <;> rfl

theorem imm16_formatI16 (a : Byte) (v : Half) : imm16 (formatI16 a v) = v := by
  apply BitVec.eq_of_getLsbD_eq
  intro i hi
  simp [imm16, formatI16, hi]
  omega

theorem formatI16_eq (a : Byte) (v : Half) :
    formatI16 a v = formatAD a (v.extractLsb' 8 8) (v.extractLsb' 0 8) := by
  apply BitVec.eq_of_getLsbD_eq
  intro i hi
  have hv : 16 ≤ i → v.getLsbD i = false := BitVec.getLsbD_of_ge _ _
  simp only [getLsbD_formatAD, formatI16, BitVec.getLsbD_or, BitVec.getLsbD_shiftLeft, BitVec.getLsbD_setWidth,
    BitVec.getLsbD_extractLsb', hi]
  split
  · simp [*, show i < 16 by omega]
  · split
    · simp [*,show i - 8 < 8 by omega, show 8 + (i - 8) = i by omega]
    · simp [*, hv (by omega), show i - 16 < 24 by omega]

/-- A word is its opcode and its 16-bit operand part. -/

theorem formatI16_fields (cw : CommandWord) : formatI16 (op cw) (imm16 cw) = cw := by
  have h := formatAD_fields cw
  have h1 : (imm16 cw).extractLsb' 8 8 = hi8 cw := by
    apply BitVec.eq_of_getLsbD_eq
    intro i hi
    simp [imm16, hi8, hi]
  have h0 : (imm16 cw).extractLsb' 0 8 = lo8 cw := by
    apply BitVec.eq_of_getLsbD_eq
    intro i hi
    simp [imm16, lo8, hi]
  rw [formatI16_eq, h1, h0, h]

theorem op_formatI16 (a : Byte) (v : Half) : op (formatI16 a v) = a := by
  rw [formatI16_eq, op_formatAD]

/-- A word is fixed by its three bytes. -/

theorem eq_formatAD_iff {cw : CommandWord} {a b c : Byte} :
    cw = formatAD a b c ↔ op cw = a ∧ hi8 cw = b ∧ lo8 cw = c := by
  constructor
  · rintro rfl
    exact ⟨op_formatAD .., hi8_formatAD .., lo8_formatAD ..⟩
  · rintro ⟨rfl, rfl, rfl⟩
    exact (formatAD_fields cw).symm

theorem formatI16_zero (a : Byte) : formatI16 a 0 = formatAD a 0 0 := by
  rw [formatI16_eq, show (0 : Half).extractLsb' 8 8 = 0 by decide, show (0 : Half).extractLsb' 0 8 = 0 by decide]

theorem imm16_eq_zero_iff (cw : CommandWord) : imm16 cw = 0 ↔ hi8 cw = 0 ∧ lo8 cw = 0 := by
  constructor
  · intro h
    have hf := formatI16_fields cw
    rw [h, formatI16_zero] at hf
    exact (eq_formatAD_iff.1 hf.symm).2
  · rintro ⟨h1, h0⟩
    have hf := formatAD_fields cw
    rw [h1, h0, ← formatI16_zero] at hf
    rw [← hf, imm16_formatI16]

end Sys2Proof
end

