-- ==== Sys2Proof/Laws/Memory.lean ====
section
/-! SUPPORT. The laws of the frame buffer: read after write, the canonical form is kept, equal reads mean equal data. -/

namespace Sys2Proof.Machine.Memory

@[simp] theorem read_nil (a : Nat) : Memory.read [] a = Memory.unwritten := rfl

theorem read_of_risingFrom {m : Memory} {lo a : Nat} (h : risingFrom lo m = true) (ha : a < lo) :
    m.read a = Memory.unwritten := by
  induction m generalizing lo with
  | nil => rfl
  | cons c rest ih =>
    simp only [risingFrom, Bool.and_eq_true, decide_eq_true_eq] at h
    have hne : ¬ c.1 = a := by omega
    rw [Memory.read, if_neg hne]
    exact ih h.2 (by omega)

theorem risingFrom_mono {m : Memory} {lo hi : Nat} (h : risingFrom hi m = true) (hle : lo ≤ hi) :
    risingFrom lo m = true := by
  cases m with
  | nil => rfl
  | cons c rest =>
    simp only [risingFrom, Bool.and_eq_true, decide_eq_true_eq] at h ⊢
    exact ⟨by omega, h.2⟩

theorem risingFrom_cons {lo a : Nat} {b : Byte} {rest : Memory} (hlo : lo ≤ a)
    (h : risingFrom (a + 1) rest = true) : risingFrom lo (Memory.cons a b rest) = true := by
  unfold Memory.cons
  split
  · exact risingFrom_mono h (by omega)
  · simp [risingFrom, hlo, h]

/-- A write keeps the addresses strictly rising. -/
theorem risingFrom_write {m : Memory} {lo a : Nat} {b : Byte} (h : risingFrom lo m = true) (hlo : lo ≤ a) :
    risingFrom lo (m.write a b) = true := by
  induction m generalizing lo with
  | nil => exact risingFrom_cons hlo rfl
  | cons c rest ih =>
    have h' := h
    simp only [risingFrom, Bool.and_eq_true, decide_eq_true_eq] at h'
    unfold Memory.write
    split
    · next hlt =>
      refine risingFrom_cons hlo ?_
      simp [risingFrom, h'.2]
      omega
    · split
      · next heq => exact risingFrom_cons hlo (heq ▸ h'.2)
      · next hlt hne =>
        simp only [risingFrom, Bool.and_eq_true, decide_eq_true_eq]
        exact ⟨h'.1, ih h'.2 (by omega)⟩

theorem read_cons {a a' : Nat} {b : Byte} {rest : Memory} (h : risingFrom (a + 1) rest = true) :
    (Memory.cons a b rest).read a' = if a' = a then b else rest.read a' := by
  unfold Memory.cons
  split
  · next hb =>
    split
    · next ha => rw [ha, hb]; exact read_of_risingFrom h (by omega)
    · rfl
  · simp only [Memory.read]
    by_cases ha : a' = a
    · simp [ha]
    · rw [if_neg (fun e => ha e.symm), if_neg ha]

/-- Read after write, for addresses in rising order. -/
theorem read_write_of_risingFrom {m : Memory} {lo a a' : Nat} {b : Byte} (h : risingFrom lo m = true) :
    (m.write a b).read a' = if a' = a then b else m.read a' := by
  induction m generalizing lo with
  | nil => exact read_cons rfl
  | cons c rest ih =>
    simp only [risingFrom, Bool.and_eq_true, decide_eq_true_eq] at h
    unfold Memory.write
    split
    · next hlt =>
      refine read_cons ?_
      simp [risingFrom, h.2]
      omega
    · split
      · next heq =>
        rw [read_cons (heq ▸ h.2)]
        simp only [Memory.read]
        by_cases ha : a' = a
        · simp [ha]
        · rw [if_neg ha, if_neg ha, if_neg (fun e => ha (e.symm.trans heq.symm))]
      · next hlt hne =>
        simp only [Memory.read]
        by_cases hc : c.1 = a'
        · rw [if_pos hc, if_pos hc, if_neg (fun e : a' = a => hne (e.symm.trans hc.symm))]
        · rw [if_neg hc, if_neg hc]; exact ih h.2

theorem wf_iff {m : Memory} : m.wf = true ↔
    risingFrom 0 m = true ∧ ∀ c ∈ m, c.1 < Config.fbSize ∧ c.2 ≠ Memory.unwritten := by
  simp [Memory.wf, List.all_eq_true]

theorem wf_nil : Memory.wf [] = true := rfl

theorem wf_rising {m : Memory} (h : m.wf = true) : risingFrom 0 m = true := (wf_iff.1 h).1

/-- A read after a write: the cell written gives the byte, every other cell what it gave. -/
theorem read_write {m : Memory} {a a' : Nat} {b : Byte} (h : m.wf = true) :
    (m.write a b).read a' = if a' = a then b else m.read a' :=
  read_write_of_risingFrom (wf_rising h)

theorem mem_cons_cell {a : Nat} {b : Byte} {rest : Memory} {c : Host.Cell}
    (h : c ∈ Memory.cons a b rest) : (c = (a, b) ∧ b ≠ Memory.unwritten) ∨ c ∈ rest := by
  unfold Memory.cons at h
  split at h
  · exact .inr h
  · next hb =>
    rcases List.mem_cons.1 h with h | h
    · exact .inl ⟨h, hb⟩
    · exact .inr h

theorem mem_write {m : Memory} {a : Nat} {b : Byte} {c : Host.Cell} (h : c ∈ m.write a b) :
    (c = (a, b) ∧ b ≠ Memory.unwritten) ∨ c ∈ m := by
  induction m with
  | nil => exact mem_cons_cell h
  | cons d rest ih =>
    unfold Memory.write at h
    split at h
    · exact mem_cons_cell h
    · split at h
      · exact (mem_cons_cell h).imp_right (List.mem_cons_of_mem _)
      · rcases List.mem_cons.1 h with h | h
        · exact .inr (h ▸ List.mem_cons_self)
        · exact (ih h).imp_right (List.mem_cons_of_mem _)

/-- A write to a cell of `FB` keeps the canonical form. -/
theorem wf_write {m : Memory} {a : Nat} {b : Byte} (h : m.wf = true) (ha : a < Config.fbSize) :
    (m.write a b).wf = true := by
  rw [wf_iff] at h ⊢
  refine ⟨risingFrom_write h.1 (Nat.zero_le _), fun c hc => ?_⟩
  rcases mem_write hc with ⟨rfl, hb⟩ | hc
  · exact ⟨ha, hb⟩
  · exact h.2 c hc

/-- Bytes written in a row keep the canonical form. -/
theorem wf_writeBytes {bytes : List Byte} {m : Memory} {a : Nat} (h : m.wf = true)
    (ha : a + bytes.length ≤ Config.fbSize) : (m.writeBytes a bytes).wf = true := by
  induction bytes generalizing m a with
  | nil => exact h
  | cons b rest ih =>
    simp only [List.length_cons] at ha
    exact ih (wf_write h (by omega)) (by omega)

/-- What a row of written bytes leaves: each of them at its address, everything else as it was. -/
theorem read_writeBytes {bytes : List Byte} {m : Memory} {a a' : Nat} (h : m.wf = true)
    (ha : a + bytes.length ≤ Config.fbSize) :
    (m.writeBytes a bytes).read a'
      = if h : a ≤ a' ∧ a' < a + bytes.length then bytes[a' - a] else m.read a' := by
  induction bytes generalizing m a with
  | nil =>
    rw [dif_neg (by simp only [List.length_nil]; omega)]
    rfl
  | cons b rest ih =>
    simp only [List.length_cons] at ha ⊢
    rw [Memory.writeBytes, ih (wf_write h (by omega)) (by omega), read_write h]
    by_cases heq : a' = a
    · subst heq
      rw [dif_neg (by omega), if_pos rfl, dif_pos (by omega)]
      simp
    · by_cases hin : a + 1 ≤ a' ∧ a' < a + 1 + rest.length
      · rw [dif_pos hin, dif_pos (by omega)]
        have : a' - a = a' - (a + 1) + 1 := by omega
        simp [this]
      · rw [dif_neg hin, if_neg heq, dif_neg (by omega)]

@[simp] theorem readBytes_length (m : Memory) (a n : Nat) : (m.readBytes a n).length = n := by
  simp [Memory.readBytes]

theorem readBytes_getElem (m : Memory) (a n i : Nat) (h : i < (m.readBytes a n).length) :
    (m.readBytes a n)[i] = m.read (a + i) := by
  simp [Memory.readBytes]

/-- Two canonical buffers that read alike everywhere are the same data. -/
theorem eq_of_read_eq {m m' : Memory} (h : m.wf = true) (h' : m'.wf = true)
    (heq : ∀ a, m.read a = m'.read a) : m = m' := by
  rw [wf_iff] at h h'
  obtain ⟨hr, hc⟩ := h
  obtain ⟨hr', hc'⟩ := h'
  generalize 0 = lo at hr hr'
  induction m generalizing m' lo with
  | nil =>
    cases m' with
    | nil => rfl
    | cons d rest' =>
      have h1 := heq d.1
      simp only [Memory.read, if_true] at h1
      exact absurd h1.symm (hc' d List.mem_cons_self).2
  | cons c rest ih =>
    cases m' with
    | nil =>
      have h1 := heq c.1
      simp only [Memory.read, if_true] at h1
      exact absurd h1 (hc c List.mem_cons_self).2
    | cons d rest' =>
      simp only [risingFrom, Bool.and_eq_true, decide_eq_true_eq] at hr hr'
      have hcd : c.1 = d.1 := by
        rcases Nat.lt_trichotomy c.1 d.1 with hlt | heq' | hlt
        · have h1 := heq c.1
          have hne : ¬ d.1 = c.1 := by omega
          simp only [Memory.read, if_true, if_neg hne] at h1
          rw [read_of_risingFrom hr'.2 (by omega)] at h1
          exact absurd h1 (hc c List.mem_cons_self).2
        · exact heq'
        · have h1 := heq d.1
          have hne : ¬ c.1 = d.1 := by omega
          simp only [Memory.read, if_true, if_neg hne] at h1
          rw [read_of_risingFrom hr.2 (by omega)] at h1
          exact absurd h1.symm (hc' d List.mem_cons_self).2
      have hbyte : c.2 = d.2 := by
        have h1 := heq c.1
        simpa [Memory.read, hcd] using h1
      have hrest : rest = rest' := by
        refine ih (fun a => ?_) (fun e he => hc e (List.mem_cons_of_mem _ he))
          (fun e he => hc' e (List.mem_cons_of_mem _ he)) (c.1 + 1) hr.2 (hcd ▸ hr'.2)
        by_cases ha : a < c.1 + 1
        · rw [read_of_risingFrom hr.2 ha, read_of_risingFrom hr'.2 (hcd ▸ ha)]
        · have h1 := heq a
          have hne : ¬ c.1 = a := by omega
          have hne' : ¬ d.1 = a := by omega
          simpa [Memory.read, if_neg hne, if_neg hne'] using h1
      rw [hrest, Prod.ext hcd hbyte]

end Sys2Proof.Machine.Memory
end

