-- ==== Sys2Proof/Laws/State.lean ====
section
/-! SUPPORT. One lemma per field of State per update of it, so that no proof unfolds an update. -/

namespace Sys2Proof.Machine

variable (s : State)

@[simp] theorem State.setCrc_crc (v : Half) : (s.setCrc v).crc = v := rfl
@[simp] theorem State.setCrc_fb (v : Half) : (s.setCrc v).fb = s.fb := rfl
@[simp] theorem State.setCrc_inputs (v : Half) : (s.setCrc v).inputs = s.inputs := rfl
@[simp] theorem State.setCrc_rsp (v : Half) : (s.setCrc v).rsp = s.rsp := rfl
@[simp] theorem State.setCrc_draws (v : Half) : (s.setCrc v).draws = s.draws := rfl

@[simp] theorem State.writeByte_crc (a : Nat) (b : Byte) : (s.writeByte a b).crc = s.crc := rfl
@[simp] theorem State.writeByte_fb (a : Nat) (b : Byte) : (s.writeByte a b).fb = s.fb.write a b := rfl
@[simp] theorem State.writeByte_inputs (a : Nat) (b : Byte) : (s.writeByte a b).inputs = s.inputs := rfl
@[simp] theorem State.writeByte_rsp (a : Nat) (b : Byte) : (s.writeByte a b).rsp = s.rsp := rfl
@[simp] theorem State.writeByte_draws (a : Nat) (b : Byte) : (s.writeByte a b).draws = s.draws := rfl

@[simp] theorem State.respond_crc (v : Half) : (s.respond v).crc = s.crc := rfl
@[simp] theorem State.respond_fb (v : Half) : (s.respond v).fb = s.fb := rfl
@[simp] theorem State.respond_inputs (v : Half) : (s.respond v).inputs = s.inputs := rfl
@[simp] theorem State.respond_rsp (v : Half) : (s.respond v).rsp = some (okResponse v) := rfl
@[simp] theorem State.respond_draws (v : Half) : (s.respond v).draws = s.draws := rfl

@[simp] theorem State.raise_crc (e : Exception) : (s.raise e).crc = s.crc := rfl
@[simp] theorem State.raise_fb (e : Exception) : (s.raise e).fb = s.fb := rfl
@[simp] theorem State.raise_inputs (e : Exception) : (s.raise e).inputs = s.inputs := rfl
@[simp] theorem State.raise_rsp (e : Exception) : (s.raise e).rsp = some e.response := rfl
@[simp] theorem State.raise_draws (e : Exception) : (s.raise e).draws = s.draws := rfl

@[simp] theorem State.advanceDraws_crc (n : Nat) : (s.advanceDraws n).crc = s.crc := rfl
@[simp] theorem State.advanceDraws_fb (n : Nat) : (s.advanceDraws n).fb = s.fb := rfl
@[simp] theorem State.advanceDraws_inputs (n : Nat) : (s.advanceDraws n).inputs = s.inputs := rfl
@[simp] theorem State.advanceDraws_rsp (n : Nat) : (s.advanceDraws n).rsp = s.rsp := rfl
@[simp] theorem State.advanceDraws_draws (n : Nat) : (s.advanceDraws n).draws = s.draws + n := rfl

@[simp] theorem State.offer_crc (cw : CommandWord) : (s.offer cw).crc = s.crc := rfl
@[simp] theorem State.offer_fb (cw : CommandWord) : (s.offer cw).fb = s.fb := rfl
@[simp] theorem State.offer_inputs (cw : CommandWord) : (s.offer cw).inputs = .command cw :: s.inputs := rfl
@[simp] theorem State.offer_rsp (cw : CommandWord) : (s.offer cw).rsp = s.rsp := rfl
@[simp] theorem State.offer_draws (cw : CommandWord) : (s.offer cw).draws = s.draws := rfl

@[simp] theorem State.idle_crc : s.idle.crc = s.crc := rfl
@[simp] theorem State.idle_fb : s.idle.fb = s.fb := rfl
@[simp] theorem State.idle_inputs : s.idle.inputs = s.inputs := rfl
@[simp] theorem State.idle_rsp : s.idle.rsp = none := rfl
@[simp] theorem State.idle_draws : s.idle.draws = s.draws := rfl

@[simp] theorem State.applyReset_crc : s.applyReset.crc = Config.freeHalf s.draws := rfl
theorem State.applyReset_fb :
    s.applyReset.fb = Memory.writeBytes [] 0 ((s.advanceDraws 1).freeBytes Config.fbSize) := by
  simp only [State.applyReset]
@[simp] theorem State.applyReset_inputs : s.applyReset.inputs = s.inputs := rfl
@[simp] theorem State.applyReset_rsp : s.applyReset.rsp = none := rfl
@[simp] theorem State.applyReset_draws : s.applyReset.draws = s.draws + 1 + Config.fbSize := rfl

@[simp] theorem State.readByte_eq (a : Nat) : s.readByte a = s.fb.read a := rfl

@[simp] theorem State.withFetchWord_eq (nbits w : Nat) :
    s.withFetchWord nbits w = s.offer (tableWord nbits w) := rfl

@[simp] theorem State.freeBytes_length (n : Nat) : (s.freeBytes n).length = n := by
  simp [State.freeBytes]

theorem State.freeBytes_getElem (n i : Nat) (h : i < (s.freeBytes n).length) :
    (s.freeBytes n)[i] = Config.freeByte (s.draws + i) := by
  simp [State.freeBytes]

@[simp] theorem State.takeInput_nil (h : s.inputs = []) : s.takeInput = none := by
  simp [State.takeInput, h]

theorem State.takeInput_cons {i : HostInput} {rest : List HostInput} (h : s.inputs = i :: rest) :
    s.takeInput = some (i, { s with inputs := rest }) := by
  simp [State.takeInput, h]

end Sys2Proof.Machine
end

