-- ==== Sys2Proof/Laws/Frame.lean ====
section
/-! SUPPORT. The laws of the frame unit's shared operations: the snapshot copy, and each kind of loop iteration. -/

namespace Sys2Proof.Machine

theorem satSub_eq (a b : Nat) : satSub a b = a - b := by
  unfold satSub
  split <;> omega

/-- The snapshot copy stays inside `FB` when its destination does. -/
theorem copy_wf {m : Memory} {src dst n : Nat} (h : m.wf = true) (hd : dst + n ≤ Config.fbSize) :
    (copy m src dst n).wf = true :=
  Memory.wf_writeBytes h (by simpa using hd)

/-- What the snapshot copy leaves: the old source bytes at the destination, everything else as it was. -/
theorem read_copy {m : Memory} {src dst n a : Nat} (h : m.wf = true) (hd : dst + n ≤ Config.fbSize) :
    (copy m src dst n).read a
      = if dst ≤ a ∧ a < dst + n then m.read (src + (a - dst)) else m.read a := by
  have hd' : dst + (m.readBytes src n).length ≤ Config.fbSize := by simpa using hd
  unfold copy
  rw [Memory.read_writeBytes h hd']
  simp only [Memory.readBytes_length]
  split
  · exact Memory.readBytes_getElem ..
  · rfl

theorem compactIter_done {c : Compaction} (h : c.rem = 0) : compactIter c = c := by
  simp [compactIter, h]

theorem compactIter_full {c : Compaction} (h : 18 ≤ c.rem) :
    compactIter c
      = { fb := copy c.fb c.rd c.wr 16, rd := c.rd + 18, wr := c.wr + 16, rem := c.rem - 18,
          written := c.written + 16 } := by
  have h0 : ¬ c.rem = 0 := by omega
  simp [compactIter, h0, Config.group, Config.keep, h]

theorem compactIter_partial {c : Compaction} (h0 : c.rem ≠ 0) (h : c.rem < 18) :
    compactIter c
      = { fb := copy c.fb c.rd c.wr (c.rem - 2), rd := c.rd, wr := c.wr + (c.rem - 2), rem := 0,
          written := c.written + (c.rem - 2) } := by
  have hg : ¬ 18 ≤ c.rem := by omega
  simp [compactIter, h0, Config.group, Config.drop, hg, satSub_eq]

end Sys2Proof.Machine
end

