-- ==== Sys2Proof/Laws/PerInstr.lean ====
section
/-! SUPPORT. Statements about every command as a word, one lemma per constructor. -/

namespace Sys2Proof.Laws.EncodesWellFormedWord

/-- The word of a command selects a row of the opcode table (R43). -/
def Statement (i : Instr) : Prop := wellFormedWord (encode i) = true

/-- A word selects the row `r` of the table when masking its bytes gives the row's bytes. -/
theorem of_row {r : Row} (hr : r ∈ opcodeTable) {a b c x y z : Byte} (hm : r.maskBits = formatAD x y z)
    (h : r.matchBits = formatAD (a &&& x) (b &&& y) (c &&& z)) : wellFormedWord (formatAD a b c) = true := by
  refine List.any_eq_true.2 ⟨r, hr, ?_⟩
  rw [Row.selects, hm, h, and_formatAD]
  exact beq_self_eq_true _

theorem crcLd (v : Half) : Statement (.crcLd v) := by
  rw [Statement, encode, formatI16_eq]
  exact of_row (r := ⟨"CRC.LD", 0x110000, 0xFF0000⟩) (x := 0xFF) (y := 0#8) (z := 0#8) (by decide) (by decide)
    (by rw [BitVec.and_zero, BitVec.and_zero]; decide)

theorem crcStep (b : Byte) : Statement (.crcStep b) :=
  of_row (r := ⟨"CRC.STEP", 0x120000, 0xFFFF00⟩) (x := 0xFF) (y := 0xFF) (z := 0#8) (by decide) (by decide)
    (by rw [BitVec.and_zero]; decide)

theorem crcRd : Statement .crcRd := by unfold Statement; decide

theorem crcFin : Statement .crcFin := by unfold Statement; decide

theorem fbWr (a d : Byte) : Statement (.fbWr a d) :=
  of_row (r := ⟨"FB.WR", 0x210000, 0xFF0000⟩) (x := 0xFF) (y := 0#8) (z := 0#8) (by decide) (by decide)
    (by rw [BitVec.and_zero, BitVec.and_zero]; decide)

theorem fbRd (a : Byte) : Statement (.fbRd a) :=
  of_row (r := ⟨"FB.RD", 0x220000, 0xFF00FF⟩) (x := 0xFF) (y := 0#8) (z := 0xFF) (by decide) (by decide)
    (by rw [BitVec.and_zero]; decide)

theorem fcCompact (l : Byte) : Statement (.fcCompact l) :=
  of_row (r := ⟨"FC.COMPACT", 0x230000, 0xFFFF00⟩) (x := 0xFF) (y := 0xFF) (z := 0#8) (by decide) (by decide)
    (by rw [BitVec.and_zero]; decide)

end Sys2Proof.Laws.EncodesWellFormedWord
end

