-- ==== Sys2Proof/Laws/Step.lean ====
section
/-! SUPPORT. What a step, an input and a command word can do, said once. -/

namespace Sys2Proof.Machine

variable {meaning : Instr → State → Host.Outcome State Fault Refusal}

theorem executeUsing_of_decode {cw : CommandWord} {i : Instr} (h : decode cw = .ok i) (s : State) :
    executeUsing meaning cw s = meaning i s := by
  simp [executeUsing, h]

theorem executeUsing_of_illegal {cw : CommandWord} {why : IllegalWord} (h : decode cw = .error why) (s : State) :
    executeUsing meaning cw s = .next (s.raise (.illegalCommand cw)) := by
  simp [executeUsing, h]

theorem execute_of_decode {cw : CommandWord} {i : Instr} (h : decode cw = .ok i) (s : State) :
    execute cw s = exec i s := executeUsing_of_decode h s

theorem execute_of_illegal {cw : CommandWord} {why : IllegalWord} (h : decode cw = .error why) (s : State) :
    execute cw s = .next (s.raise (.illegalCommand cw)) := executeUsing_of_illegal h s

theorem stepUsing_idle {s : State} (h : s.inputs = []) : stepUsing meaning s = .next s.idle := by
  simp [stepUsing, State.takeInput, h]

theorem stepUsing_command {s : State} {cw : CommandWord} {rest : List HostInput} (h : s.inputs = .command cw :: rest) :
    stepUsing meaning s = executeUsing meaning cw { s with inputs := rest } := by
  simp [stepUsing, State.takeInput, h, applyInput]

theorem stepUsing_rst {s : State} {rest : List HostInput} (h : s.inputs = .rst :: rest) :
    stepUsing meaning s = .next (State.applyReset { s with inputs := rest }) := by
  simp [stepUsing, State.takeInput, h, applyInput]

theorem step_idle {s : State} (h : s.inputs = []) : step s = .next s.idle := stepUsing_idle h

theorem step_command {s : State} {cw : CommandWord} {rest : List HostInput} (h : s.inputs = .command cw :: rest) :
    step s = execute cw { s with inputs := rest } := stepUsing_command h

theorem step_rst {s : State} {rest : List HostInput} (h : s.inputs = .rst :: rest) :
    step s = .next (State.applyReset { s with inputs := rest }) := stepUsing_rst h

/-- A command word runs its command or raises IllegalCommand. -/
theorem execute_cases {cw : CommandWord} {s : State} {o : Host.Outcome State Fault Refusal}
    (h : execute cw s = o) :
    (∃ i, decode cw = .ok i ∧ exec i s = o) ∨
    (∃ why, decode cw = .error why ∧ o = .next (s.raise (.illegalCommand cw))) := by
  cases hd : decode cw with
  | ok i => exact .inl ⟨i, rfl, (execute_of_decode hd s).symm.trans h⟩
  | error why => exact .inr ⟨why, rfl, h.symm.trans (execute_of_illegal hd s)⟩

/-- Everything a step can do: stand idle, execute the offered word, or reset. -/
theorem step_cases {s : State} {o : Host.Outcome State Fault Refusal} (h : step s = o) :
    (s.inputs = [] ∧ o = .next s.idle) ∨
    (∃ cw rest, s.inputs = .command cw :: rest ∧ execute cw { s with inputs := rest } = o) ∨
    (∃ rest, s.inputs = .rst :: rest ∧ o = .next (State.applyReset { s with inputs := rest })) := by
  cases hi : s.inputs with
  | nil => exact .inl ⟨rfl, h.symm.trans (step_idle hi)⟩
  | cons input rest =>
    cases input with
    | command cw => exact .inr (.inl ⟨cw, rest, rfl, (step_command hi).symm.trans h⟩)
    | rst => exact .inr (.inr ⟨rest, rfl, h.symm.trans (step_rst hi)⟩)

theorem run_zero (s : State) : run 0 s = .next s := rfl

/-- A run whose first step answers goes on from there. -/
theorem run_succ {s t : State} (h : step s = .next t) (k : Nat) : run (k + 1) s = run k t := by
  rw [run, h]

/-- One step of a run of any machine of the host's interface. -/
theorem host_run_succ (M : Host.Core) (k : Nat) (s : M.State) :
    M.run (k + 1) s = match M.step s with
      | .next t => M.run k t
      | .fault r => .fault r
      | .refused r => .refused r := by
  cases h : M.step s <;> simp [Host.Core.run, h]

/-- The run of the host's interface is the run of the machine. -/
theorem core_run_eq_run (k : Nat) (s : State) : Sys2Proof.core.run k s = run k s := by
  induction k generalizing s with
  | zero => rfl
  | succ k ih =>
    have h := host_run_succ Sys2Proof.core k s
    cases hs : step s with
    | next t =>
      rw [show Sys2Proof.core.step s = .next t from hs] at h
      exact h.trans ((ih t).trans (run_succ hs k).symm)
    | fault r => cases r
    | refused r =>
      rw [show Sys2Proof.core.step s = .refused r from hs] at h
      exact h.trans (by rw [run, hs]; rfl)

/-! ### The machine for any polynomial -/

theorem execWith_crcStep (p : Parameters) (byte : Byte) (s : State) :
    execWith p (.crcStep byte) s
      = .next ((s.setCrc (crcStep p.poly s.crc byte)).respond (crcStep p.poly s.crc byte)) := rfl

/-- Only CRC.STEP depends on the polynomial. -/
theorem execWith_of_ne_crcStep {i : Instr} (h : ∀ byte, i ≠ .crcStep byte) (p : Parameters) (s : State) :
    execWith p i s = exec i s := by
  cases i with
  | crcStep byte => exact absurd rfl (h byte)
  | crcLd _ => rfl
  | crcRd => rfl
  | crcFin => rfl
  | fbWr _ _ => rfl
  | fbRd _ => rfl
  | fcCompact _ => rfl

/-- The default parameters give this hardware. -/
theorem execWith_default : execWith {} = exec := by
  funext i s
  cases i <;> rfl

theorem executeWith_default (cw : CommandWord) (s : State) : executeWith {} cw s = execute cw s := by
  rw [executeWith, execute, execWith_default]

theorem stepWith_default : stepWith {} = step := by
  funext s
  rw [stepWith, step, execWith_default]

theorem coreWith_default : coreWith {} = Sys2Proof.core := by
  rw [coreWith, stepWith_default]
  rfl

theorem runWith_zero (p : Parameters) (s : State) : runWith p 0 s = .next s := rfl

/-- A run whose first step answers goes on from there. -/
theorem runWith_succ {p : Parameters} {s t : State} (h : stepWith p s = .next t) (k : Nat) :
    runWith p (k + 1) s = runWith p k t := by
  have hr := host_run_succ (coreWith p) k s
  rw [show (coreWith p).step s = .next t from h] at hr
  exact hr

end Sys2Proof.Machine
end

