-- ==== Sys2Proof/Tests/Slice0.lean ====
section
/-! SUPPORT. Small tests of single commands, with expected results from 95_test_vectors.md and 30_encoding.md section 9,
refusals of ill-formed words and listings, and a witness for the hypotheses of each statement. -/

namespace Sys2Proof.Machine.Tests

/-! ### Helpers -/

/-- The next state of an outcome. -/
def answered (o : Host.Outcome State Fault Refusal) : Option State :=
  match o with
  | .next t => some t
  | .fault _ => none
  | .refused _ => none

/-- The response a command word gets in `s`. -/
def respondsTo (cw : CommandWord) (s : State) : Option Response := (answered (execute cw s)).bind (·.rsp)

/-- `CRC` after a command word. -/
def crcAfter (cw : CommandWord) (s : State) : Option Half := (answered (execute cw s)).map (·.crc)

/-- `FB[a]` after a command word. -/
def cellAfter (cw : CommandWord) (s : State) (a : Nat) : Option Byte :=
  (answered (execute cw s)).map fun t => t.fb.read a

/-- The state with `v` in `CRC`. -/
def withCrc (v : Half) : State := State.reset.setCrc v

/-- The ramp frame `FB[i] = i` of 95_test_vectors.md part 3, for the first `n` cells. -/
def ramp (n : Nat) : State :=
  { State.reset with fb := Memory.writeBytes [] 0 ((List.range n).map (BitVec.ofNat 8)) }

/-- The state in which the host offers the words. -/
def offering (words : List CommandWord) (s : State) : State := { s with inputs := words.map .command }

/-! ### Words written out bit by bit decode to their commands (30_encoding.md rules R42, R43) -/

theorem test_decode_crcLd : decode 0b00010001_1010101111001101 = .ok (.crcLd 0xABCD) := by decide
theorem test_decode_crcStep : decode 0b00010010_00000000_00110001 = .ok (.crcStep 0x31) := by decide
theorem test_decode_crcRd : decode 0b00010011_00000000_00000000 = .ok .crcRd := by decide
theorem test_decode_crcFin : decode 0b00010100_00000000_00000000 = .ok .crcFin := by decide
theorem test_decode_fbWr : decode 0b00100001_00001010_11000011 = .ok (.fbWr 0x0A 0xC3) := by decide
theorem test_decode_fbRd : decode 0b00100010_00001010_00000000 = .ok (.fbRd 0x0A) := by decide
theorem test_decode_fcCompact : decode 0b00100011_00000000_00011110 = .ok (.fcCompact 30) := by decide

theorem test_encode_crcLd : encode (.crcLd 0xABCD) = 0x11ABCD := by decide
theorem test_encode_fbWr : encode (.fbWr 0x0A 0xC3) = 0x210AC3 := by decide
theorem test_encode_fbRd : encode (.fbRd 0x0A) = 0x220A00 := by decide
theorem test_encode_fcCompact : encode (.fcCompact 30) = 0x23001E := by decide

theorem test_decodeTableWord : decodeTableWord 24 0x220A00 = some (.fbRd 0x0A) := by decide
theorem test_decodeTableWord_illegal : decodeTableWord 24 0x220A01 = none := by decide

/-! ### Each check of WellFormed refuses an ill-formed term -/

theorem test_illformed_step_word : wellFormedWord 0x120131 = false := by decide
theorem test_illformed_rd_word : wellFormedWord 0x130001 = false := by decide
theorem test_illformed_fin_word : wellFormedWord 0x148000 = false := by decide
theorem test_illformed_fbRd_word : wellFormedWord 0x220A01 = false := by decide
theorem test_illformed_compact_word : wellFormedWord 0x230105 = false := by decide
theorem test_illformed_opcodes :
    ([0x000000, 0x100000, 0x150000, 0x200000, 0x240000, 0x310000, 0xFFFFFF] : List CommandWord).all
      (fun cw => !wellFormedWord cw) = true := by decide
theorem test_wellformed_full_operands : wellFormedWord 0x11FFFF = true ∧ wellFormedWord 0x21FFFF = true := by decide

theorem test_illformed_listing_crcLd : (Listing.crcLd 0x10000).wellFormed = false := by decide
theorem test_illformed_listing_crcStep : (Listing.crcStep 256).wellFormed = false := by decide
theorem test_illformed_listing_fbWr_addr : (Listing.fbWr 256 0).wellFormed = false := by decide
theorem test_illformed_listing_fbWr_data : (Listing.fbWr 0 256).wellFormed = false := by decide
theorem test_illformed_listing_fbRd : (Listing.fbRd 256).wellFormed = false := by decide
theorem test_illformed_listing_fcCompact : (Listing.fcCompact 256).wellFormed = false := by decide
theorem test_illformed_listing_checksum : (Listing.checksum [1, 256]).wellFormed = false := by decide
theorem test_illformed_listing_fbLoad_byte : (Listing.fbLoad 0 [256]).wellFormed = false := by decide
theorem test_illformed_listing_fbLoad_end : (Listing.fbLoad 255 [1, 2]).wellFormed = false := by decide
theorem test_illformed_listing_has_no_words : assemble (.fcCompact 256) = none := by decide

/-! ### Listings (R49, R50) -/

theorem test_parse_operands : parseLine "FB.WR 0x0A, 195 ; store".toList = some (some (.fbWr 10 195)) := by decide
theorem test_parse_comment : parseLine "  ; nothing".toList = some none := by decide
theorem test_parse_wrong_count : parseLine "CRC.RD 1".toList = none := by decide
theorem test_expand_checksum :
    assemble (.checksum [0x31, 0x32]) = some [0x110000, 0x120031, 0x120032, 0x140000] := by decide
theorem test_expand_fbLoad : assemble (.fbLoad 3 [0x11, 0x22]) = some [0x210311, 0x210422] := by decide
theorem test_expand_crcClr : assemble .crcClr = some [0x110000] := by decide

/-! ### The CRC unit (95_test_vectors.md T2, S3, L2, L5, L6, T1, V2.18) -/

theorem test_crcStep_T2 : crcAfter 0x120056 (withCrc 0x1234) = some 0x3598 := by decide
theorem test_crcStep_S3 : respondsTo 0x120080 (withCrc 0x0000) = some ⟨0, 0x8303⟩ := by decide
theorem test_crcLd_L2 : crcAfter 0x11FFFF State.reset = some 0xFFFF := by decide
theorem test_crcRd_L6 : respondsTo 0x130000 (withCrc 0xFEE8) = some ⟨0, 0xFEE8⟩ := by decide
theorem test_crcFin_L5 : respondsTo 0x140000 (withCrc 0xFEE8) = some ⟨0, 0x0117⟩ := by decide
theorem test_crcFin_keeps_crc : crcAfter 0x140000 (withCrc 0xFEE8) = some 0xFEE8 := by decide
theorem test_checksum_one_byte : checksum 0x8005 [0x01] = 0x7FFA := by decide
theorem test_checksum_other_poly : checksum 0x3D65 [0x01] = 0xC29A := by decide
theorem test_machine_other_poly :
    (answered (stepWith { poly := 0x3D65 } (offering [0x120001] (withCrc 0x0000)))).map (·.crc) = some 0x3D65 := by
  decide

/-! ### The frame unit (95_test_vectors.md M2, M3, M5, F2, F5, F7, F8, T6) -/

theorem test_fbWr_M2 : cellAfter 0x21FFFF State.reset 255 = some 0xFF := by decide
theorem test_fbWr_M3 : cellAfter 0x210AC3 (ramp 12) 10 = some 0xC3 ∧ cellAfter 0x210AC3 (ramp 12) 9 = some 9 := by
  decide
theorem test_fbRd_M5 :
    respondsTo 0x22FF00 { State.reset with fb := [(255, 0xFF)] } = some ⟨0, 0x00FF⟩ := by decide
theorem test_fcCompact_F5 :
    respondsTo 0x230010 (ramp 16) = some ⟨0, 12⟩ ∧
    cellAfter 0x230010 (ramp 16) 10 = some 12 ∧ cellAfter 0x230010 (ramp 16) 11 = some 13 := by decide
theorem test_fcCompact_X2 : respondsTo 0x23000B (ramp 16) = some ⟨1, 0x000B⟩ := by decide
theorem test_newLen_T6 :
    [12, 13, 14, 15, 16, 29, 30, 31, 32, 33, 48, 49, 122, 247, 248, 254, 255].map newLen
      = [10, 10, 10, 11, 12, 25, 26, 26, 26, 27, 42, 42, 106, 218, 218, 224, 225] := by decide

/-! ### Errors and steps (95_test_vectors.md X4, X8, P3) -/

theorem test_illegal_X4 : respondsTo 0x230105 State.reset = some ⟨2, 0x0023⟩ := by decide
theorem test_illegal_X8 : crcAfter 0x120131 (withCrc 0xBEEF) = some 0xBEEF := by decide
theorem test_step_runs_the_offered_word :
    ((answered (step (State.reset.withFetchWord 24 0x111234))).map fun t => (t.crc, t.rsp, t.inputs))
      = some (0x1234, some ⟨0, 0x0000⟩, []) := by decide

/-! ### Witnesses: the hypotheses of each statement are met together -/

theorem ramp_inv : (ramp 32).Inv := ⟨by decide, fun _ h => nomatch h⟩

theorem witness_LegalWordsAreCounted : wellFormedWord 0x230105 = false := by decide

theorem witness_CrcBitIsTheShiftRegisterStep : (1 ≤ 1 ∧ 1 ≤ 15) ∧ (1 ≤ 15 ∧ 15 ≤ 15) := by decide

theorem witness_CrcStepIsTheSourceLoop : (8 ≤ 8 ∧ 0 < 8) ∧ (8 ≤ 16 ∧ 7 < 8) := by decide

theorem witness_CrcStepAppliesOneByte : op 0x120131 = 0x12 ∧ hi8 0x120131 ≠ 0 := by decide

theorem witness_CrcRdReturnsTheRegister :
    op 0x130001 = 0x13 ∧ (0x130001 : CommandWord) ≠ 0x130000 := by decide

theorem witness_CrcFinReturnsTheComplement :
    op 0x148000 = 0x14 ∧ (0x148000 : CommandWord) ≠ 0x140000 := by decide

theorem witness_ChecksumCommandsComputeTheChecksum :
    (offering ((checksumCommands [0x01, 0x80]).map encode) (withCrc 0xBEEF)).inputs
      = (checksumCommands [0x01, 0x80]).map (fun i => HostInput.command (encode i)) := by decide

/-- FB.WR at both ends of the buffer, with a byte the cell holds already and with another one. -/
theorem witness_FbWrStoresOneByte :
    (ramp 32).Inv ∧ (ramp 32).fb.read (effectiveAddr 5) = 5 ∧ 6 ≠ effectiveAddr 5 ∧
    (ramp 32).fb.read (effectiveAddr 255) = 0 ∧ 0 ≠ effectiveAddr 255 := ⟨ramp_inv, by decide⟩

theorem witness_FbRdReturnsOneByte : op 0x220A01 = 0x22 ∧ lo8 0x220A01 ≠ 0 := by decide

/-- A copy that overlaps its source, at the top of the buffer, with an index of each kind. -/
theorem witness_CopyIsASnapshot :
    (ramp 32).fb.wf = true ∧ 240 + 16 ≤ 256 ∧ 238 + 16 ≤ 256 ∧ 238 < 240 ∧ 240 - 238 < 16 ∧ 15 < 16 ∧
    (237 < 238 ∨ 238 + 16 ≤ 237) ∧ (254 < 238 ∨ 238 + 16 ≤ 254) := by decide

theorem witness_CompactRunsTheLoop :
    12 ≤ (12 : Byte).toNat ∧ 12 ≤ (255 : Byte).toNat ∧
    (compactStart [] 12).rem = 0 ∧ 18 ≤ (compactStart [] 30).rem ∧
    1 ≤ (compactStart [] 13).rem ∧ (compactStart [] 29).rem ≤ 17 := by decide

/-- Lengths 12, 30 and 255 with an index of every region, and a short length and a malformed word for the errors. -/
theorem witness_CompactStripsAndRepacks :
    (ramp 32).Inv ∧ 12 ≤ (12 : Byte).toNat ∧ 12 ≤ (30 : Byte).toNat ∧ 12 ≤ (255 : Byte).toNat ∧
    9 < 10 ∧ (10 ≤ 10 ∧ 10 < newLen 30) ∧ (10 ≤ 25 ∧ 25 < newLen 30) ∧
    (newLen 30 ≤ 26 ∧ 26 < 30) ∧ (newLen 30 ≤ 29 ∧ 29 < 30) ∧ 30 ≤ 30 ∧
    (11 : Byte).toNat < 12 ∧ op 0x230105 = 0x23 ∧ hi8 0x230105 ≠ 0 := ⟨ramp_inv, by decide⟩

theorem witness_CompactReturnsTheNewLength :
    12 ≤ (12 : Byte).toNat ∧ (12 ≤ 12 ∧ 12 ≤ 255) ∧ (12 ≤ 255 ∧ 255 ≤ 255 ∧ 12 < 255) := by decide

theorem witness_CompactLoopCursors : (12 ≤ 255 ∧ 255 ≤ 255 ∧ 18 * 0 < 255 - 12) ∧ 18 * 13 < 255 - 12 := by decide

theorem witness_CompactLoopBounds :
    (12 ≤ 255 ∧ 255 ≤ 255) ∧ 0 < (compactIter^[0] (compactStart [] 30)).rem ∧
    (16 = if 18 ≤ (compactIter^[0] (compactStart [] 30)).rem then 16
      else satSub (compactIter^[0] (compactStart [] 30)).rem 2) ∧ 15 < 16 := by decide

theorem witness_CompactIsAOneWayTransform :
    12 ≤ (30 : Byte).toNat ∧ 12 ≤ (BitVec.ofNat 16 (newLen 30) : Half).toNat := by decide

/-- Two buffers that agree on the header and the source cells of a 16-byte frame and differ in its dropped cells. -/
theorem witness_CompactReadsOnlyItsSourceCells :
    (ramp 32).Inv ∧ ((ramp 32).writeByte 10 0xEE).Inv ∧ 12 ≤ (16 : Byte).toNat ∧
    (∀ j, j < 10 → (ramp 32).fb.read j = ((ramp 32).writeByte 10 0xEE).fb.read j) ∧
    (∀ j, 10 ≤ j → j < newLen 16 →
      (ramp 32).fb.read (sourceIndex j) = ((ramp 32).writeByte 10 0xEE).fb.read (sourceIndex j)) := by
  refine ⟨ramp_inv, ⟨by decide, fun _ h => nomatch h⟩, by decide, by decide, fun j h h' => ?_⟩
  have hn : newLen 16 = 12 := by decide
  have hj : j = 10 ∨ j = 11 := by omega
  rcases hj with rfl | rfl <;> decide

theorem witness_FbLoadFillsTheFrame :
    (offering ((fbLoadCommands 254 [0xAA, 0xBB]).map encode) (ramp 32)).Inv ∧ 254 + [0xAA, 0xBB].length ≤ 256 ∧
    (offering ((fbLoadCommands 254 [0xAA, 0xBB]).map encode) (ramp 32)).inputs
      = (fbLoadCommands 254 [0xAA, 0xBB]).map (fun i => HostInput.command (encode i)) ∧
    1 < [0xAA, 0xBB].length ∧ (253 < 254 ∨ 254 + [0xAA, 0xBB].length ≤ 253) :=
  ⟨⟨ramp_inv.fb_wf, ramp_inv.rsp_legal⟩, by decide⟩

theorem witness_CrcAccessByCommand :
    decode 0x11BEEF = .ok (.crcLd 0xBEEF) ∧ decode 0x120056 = .ok (.crcStep 0x56) ∧
    (∀ i, decode 0x230105 = .ok i → i.isCrcUnit = false) ∧
    (answered (execute 0x230105 State.reset)).isSome = true ∧
    (∀ v, decode 0x210AC3 ≠ .ok (.crcLd v)) ∧ (∀ b, decode 0x210AC3 ≠ .ok (.crcStep b)) := by
  have h : decode 0x210AC3 = .ok (.fbWr 0x0A 0xC3) := by decide
  have h' : decode 0x230105 = .error .mustBeZeroBitSet := by decide
  refine ⟨by decide, by decide, fun i hi => ?_, by decide, fun v hv => ?_, fun b hb => ?_⟩
  · rw [h'] at hi; cases hi
  · rw [h] at hv; cases hv
  · rw [h] at hb; cases hb

theorem witness_BufferAccessByCommand :
    (ramp 32).Inv ∧ decode 0x210AC3 = .ok (.fbWr 0x0A 0xC3) ∧ 11 ≠ effectiveAddr 0x0A ∧
    decode 0x23001E = .ok (.fcCompact 30) ∧ (9 < 10 ∨ (30 : Byte).toNat ≤ 9) ∧ (30 < 10 ∨ (30 : Byte).toNat ≤ 30) ∧
    (∀ a d, decode 0x130000 ≠ .ok (.fbWr a d)) ∧ (∀ l, decode 0x130000 ≠ .ok (.fcCompact l)) := by
  have h : decode 0x130000 = .ok .crcRd := by decide
  refine ⟨ramp_inv, by decide, by decide, by decide, by decide, by decide, fun a d hd => ?_, fun l hl => ?_⟩
  · rw [h] at hd; cases hd
  · rw [h] at hl; cases hl

theorem witness_TheTwoUnitsAreIndependent :
    (Instr.crcStep 0x31).isCrcUnit = true ∧ (Instr.fcCompact 30).isCrcUnit = false := by decide

theorem witness_EveryContentIsReachable : (ramp 32).Inv ∧ Memory.wf [(0, 1), (255, 0xFF)] = true :=
  ⟨ramp_inv, by decide⟩

/-- A write of cell 9, a compaction and an illegal word between it and the read; and a load of `CRC` with frame commands
between it and the read. -/
theorem witness_ReadReturnsTheLatestWrite :
    (ramp 32).Inv ∧
    (∀ cw ∈ ([0x23001E, 0x000000] : List CommandWord), ∀ d', decode cw ≠ .ok (.fbWr 9 d')) ∧
    (∀ cw ∈ ([0x23001E, 0x000000] : List CommandWord), ∀ l, decode cw = .ok (.fcCompact l) →
      (9 : Byte).toNat < 10 ∨ l.toNat ≤ (9 : Byte).toNat) ∧
    (∀ cw ∈ ([0x23001E, 0x000000] : List CommandWord), ∀ v', decode cw ≠ .ok (.crcLd v')) ∧
    (∀ cw ∈ ([0x23001E, 0x000000] : List CommandWord), ∀ b, decode cw ≠ .ok (.crcStep b)) := by
  have h : decode 0x23001E = .ok (.fcCompact 30) := by decide
  have h' : decode 0x000000 = .error .unknownOp := by decide
  refine ⟨ramp_inv, ?_, fun _ _ _ _ => .inl (by decide), ?_, ?_⟩ <;>
    · intro cw hcw x hx
      rcases List.mem_cons.1 hcw with rfl | hcw
      · rw [h] at hx; cases hx
      · rcases List.mem_cons.1 hcw with rfl | hcw
        · rw [h'] at hx; cases hx
        · cases hcw

theorem witness_OkResponseValues :
    decode 0x11BEEF = .ok (.crcLd 0xBEEF) ∧ decode 0x120056 = .ok (.crcStep 0x56) ∧ decode 0x130000 = .ok .crcRd ∧
    decode 0x140000 = .ok .crcFin ∧ decode 0x21FFFF = .ok (.fbWr 0xFF 0xFF) ∧ decode 0x22FF00 = .ok (.fbRd 0xFF) ∧
    decode 0x23000C = .ok (.fcCompact 12) ∧ 12 ≤ (12 : Byte).toNat ∧
    decode 0x2300FF = .ok (.fcCompact 255) ∧ 12 ≤ (255 : Byte).toNat := by decide

theorem witness_ErrorsReportAndWriteNothing :
    decode 0x23000B = .ok (.fcCompact 11) ∧ (11 : Byte).toNat < 12 ∧
    (respondsTo 0x148000 State.reset).map (·.status) = some 2 := by decide

theorem witness_ShortLengthIsAnInvalidArgument : (0 : Byte).toNat < 12 ∧ (11 : Byte).toNat < 12 := by decide

theorem witness_IllegalWordIsNotExecuted : ∀ i, decode 0x000000 ≠ .ok i := by
  have h : decode 0x000000 = .error .unknownOp := by decide
  intro i hi
  rw [h] at hi
  cases hi

theorem witness_DecodingComesBeforeTheLengthCheck :
    (∀ i, decode 0x000000 ≠ .ok i) ∧ (op 0x230105 = 0x23 ∧ hi8 0x230105 ≠ 0) ∧
    (op 0x23000B = 0x23 ∧ hi8 0x23000B = 0 ∧ (lo8 0x23000B).toNat < 12) :=
  ⟨witness_IllegalWordIsNotExecuted, by decide⟩

theorem witness_WhichCommandRaisesWhat :
    op 0x110000 = 0x11 ∧ op 0x120131 = 0x12 ∧ op 0x130001 = 0x13 ∧ op 0x148000 = 0x14 ∧ op 0x21FFFF = 0x21 ∧
    op 0x220A01 = 0x22 ∧ op 0x23000B = 0x23 ∧
    (∀ o ∈ [(0x11 : Byte), 0x12, 0x13, 0x14, 0x21, 0x22, 0x23], op 0x240000 ≠ o) := by decide

/-- An illegal word, and a legal word that raises InvalidArgument. -/
theorem witness_ErrorsAreNotLatched :
    (∀ i, decode 0x000000 = .ok i → ∃ len, i = .fcCompact len ∧ len.toNat < 12) ∧
    (∀ i, decode 0x23000B = .ok i → ∃ len, i = .fcCompact len ∧ len.toNat < 12) := by
  have h : decode 0x23000B = .ok (.fcCompact 11) := by decide
  refine ⟨fun i hi => absurd hi (witness_IllegalWordIsNotExecuted i), fun i hi => ?_⟩
  rw [h] at hi
  cases hi
  exact ⟨11, rfl, by decide⟩

theorem witness_StepRunsTheDecodedCommand :
    (offering [0x120056] State.reset).inputs = .command 0x120056 :: [] ∧ decode 0x120056 = .ok (.crcStep 0x56) ∧
    (offering [0x000000] State.reset).inputs = .command 0x000000 :: [] ∧ (∀ i, decode 0x000000 ≠ .ok i) :=
  ⟨by decide, by decide, by decide, witness_IllegalWordIsNotExecuted⟩

theorem witness_EveryStepAnswers : (offering [0x120056] State.reset).inputs = .command 0x120056 :: [] := by decide

theorem witness_IdleStepHoldsTheState : (withCrc 0xBEEF).inputs = [] := by decide

theorem witness_ResetInputLeavesUnspecifiedValues :
    ({ ramp 32 with inputs := [.rst] } : State).inputs = .rst :: [] ∧ 0 < 256 ∧ 255 < 256 := by decide

/-- Both a step that runs the loop of FC.COMPACT and a step that resets start from a state that meets the invariant. -/
theorem witness_StepKeepsTheInvariant :
    (offering [0x23001E] (ramp 32)).Inv ∧ (answered (step (offering [0x23001E] (ramp 32)))).isSome = true ∧
    ({ ramp 32 with inputs := [.rst] } : State).Inv ∧
    (answered (step { ramp 32 with inputs := [.rst] })).isSome = true :=
  ⟨⟨ramp_inv.fb_wf, ramp_inv.rsp_legal⟩, by decide, ⟨ramp_inv.fb_wf, ramp_inv.rsp_legal⟩, by decide⟩

/-- A command that is not CRC.STEP, an offered CRC.STEP, and an offered word that is none. -/
theorem witness_EveryPolynomialHasItsMachine :
    (∀ byte, Instr.crcRd ≠ .crcStep byte) ∧
    (offering [0x120031] (withCrc 0xBEEF)).inputs = .command 0x120031 :: [] ∧
    decode 0x120031 = .ok (.crcStep 0x31) ∧
    ∀ cw rest byte, (offering [0x120131] (withCrc 0xBEEF)).inputs = .command cw :: rest →
      decode cw ≠ .ok (.crcStep byte) :=
  ⟨(fun _ h => nomatch h), rfl, by decide, fun cw rest byte h => by
    cases h
    rw [show decode 0x120131 = .error .mustBeZeroBitSet by decide]
    exact (fun h => nomatch h)⟩

theorem witness_ChecksumForEveryPolynomial :
    (offering ((checksumCommands [0x01]).map encode) (withCrc 0xBEEF)).inputs
      = (checksumCommands [0x01]).map (fun i => HostInput.command (encode i)) := by decide

end Sys2Proof.Machine.Tests
end

/-! ## Rules that the statements of the state family need -/

namespace Sys2Proof

/-- A command's own word decodes to it (R42, R43): one half of the round trip. -/
theorem decode_encode (i : Instr) : decode (encode i) = .ok i := by
  cases i with
  | crcLd v => simp [decode, encode, op_formatI16, imm16_formatI16]
  | crcStep b => simp [decode, encode, formatB, op_formatAD, hi8_formatAD, lo8_formatAD]
  | crcRd => decide
  | crcFin => decide
  | fbWr a d => simp [decode, encode, op_formatAD, hi8_formatAD, lo8_formatAD]
  | fbRd a => simp [decode, encode, formatA, op_formatAD, hi8_formatAD, lo8_formatAD]
  | fcCompact l => simp [decode, encode, formatB, op_formatAD, hi8_formatAD, lo8_formatAD]

end Sys2Proof

namespace Sys2Proof.Machine

/-! ### The buffer as a whole -/

namespace Memory

/-- An address that no listed cell has reads as unwritten. -/
theorem read_of_forall_ne {m : Memory} {a : Nat} (h : ∀ c ∈ m, c.1 ≠ a) : m.read a = Memory.unwritten := by
  induction m with
  | nil => rfl
  | cons c rest ih =>
    obtain ⟨hc, hrest⟩ := List.forall_mem_cons.1 h
    rw [Memory.read, if_neg hc, ih hrest]

/-- Beyond the 256 cells of `FB` a canonical buffer reads as unwritten. -/
theorem read_of_fbSize_le {m : Memory} {a : Nat} (h : m.wf = true) (ha : Config.fbSize ≤ a) :
    m.read a = Memory.unwritten :=
  read_of_forall_ne fun c hc => Nat.ne_of_lt (Nat.lt_of_lt_of_le ((wf_iff.1 h).2 c hc).1 ha)

/-- Writing every cell of `m` over any canonical buffer gives `m`. -/
theorem writeBytes_readBytes_fbSize {m m' : Memory} (h : m.wf = true) (h' : m'.wf = true) :
    m'.writeBytes 0 (m.readBytes 0 Config.fbSize) = m := by
  have hlen : 0 + (m.readBytes 0 Config.fbSize).length ≤ Config.fbSize := by simp
  refine eq_of_read_eq (wf_writeBytes h' hlen) h fun a => ?_
  rw [read_writeBytes h' hlen]
  split
  · rw [readBytes_getElem]
    congr 1
    omega
  · next hout =>
    have ha : Config.fbSize ≤ a := by simpa using hout
    rw [read_of_fbSize_le h' ha, read_of_fbSize_le h ha]

end Memory

/-! ### What a command of each unit does, with the state it neither reads nor writes left free -/

/-- A length below 12 raises InvalidArgument (R101). -/
theorem exec_fcCompact_short {len : Byte} (h : len.toNat < Config.minLen) (s : State) :
    exec (.fcCompact len) s = .next (s.raise (.invalidArgument len)) := by
  rw [exec, execFcCompact, if_pos h]

/-- A legal length runs the loop, fills the tail and answers the bytes written (R88, R90). -/
theorem exec_fcCompact_legal {len : Byte} (h : ¬ len.toNat < Config.minLen) (s : State) :
    exec (.fcCompact len) s = .next { s with
      fb := (compactLoop s.fb len.toNat).fb.writeBytes (compactLoop s.fb len.toNat).written
        (s.freeBytes (len.toNat - (compactLoop s.fb len.toNat).written))
      rsp := some (okResponse (BitVec.ofNat 16 (compactLoop s.fb len.toNat).written))
      draws := s.draws + (len.toNat - (compactLoop s.fb len.toNat).written) } := by
  rw [exec, execFcCompact, if_neg h]
  simp only [State.advanceDraws, State.respond]

/-- A CRC command gives the register and the response values that do not depend on `FB`, the draws or the earlier
response, and keeps everything else (R19). -/
theorem exec_crcUnit {a : Instr} (ha : a.isCrcUnit = true) (s : State) :
    ∃ (v : Half) (r : Option Response), ∀ (m : Memory) (d : Nat) (r' : Option Response),
      exec a { s with fb := m, draws := d, rsp := r' } = .next { s with crc := v, fb := m, draws := d, rsp := r } := by
  cases a with
  | crcLd v => exact ⟨v, some (okResponse 0x0000), fun _ _ _ => rfl⟩
  | crcStep b =>
    exact ⟨crcStep Config.poly s.crc b, some (okResponse (crcStep Config.poly s.crc b)), fun _ _ _ => rfl⟩
  | crcRd => exact ⟨s.crc, some (okResponse s.crc), fun _ _ _ => rfl⟩
  | crcFin => exact ⟨s.crc, some (okResponse (not16 s.crc)), fun _ _ _ => rfl⟩
  | fbWr _ _ => cases ha
  | fbRd _ => cases ha
  | fcCompact _ => cases ha

/-- A frame command gives the buffer, the draws and the response values that do not depend on `CRC` or the earlier
response, and keeps everything else (R19). -/
theorem exec_frameUnit {b : Instr} (hb : b.isCrcUnit = false) (s : State) :
    ∃ (m : Memory) (d : Nat) (r : Option Response), ∀ (v : Half) (r' : Option Response),
      exec b { s with crc := v, rsp := r' } = .next { s with crc := v, fb := m, draws := d, rsp := r } := by
  cases b with
  | crcLd _ => cases hb
  | crcStep _ => cases hb
  | crcRd => cases hb
  | crcFin => cases hb
  | fbWr a d => exact ⟨s.fb.write (effectiveAddr a) d, s.draws, some (okResponse 0x0000), fun _ _ => rfl⟩
  | fbRd a => exact ⟨s.fb, s.draws, some (okResponse (zext16 (s.fb.read (effectiveAddr a)))), fun _ _ => rfl⟩
  | fcCompact len =>
    by_cases hlen : len.toNat < Config.minLen
    · exact ⟨s.fb, s.draws, some (Exception.invalidArgument len).response, fun _ _ => exec_fcCompact_short hlen _⟩
    · simp only [exec_fcCompact_legal hlen, State.freeBytes]
      exact ⟨_, _, _, fun _ _ => rfl⟩

/-! ### O26: the register -/

/-- The register after a command that found `r` in it (R11). -/
def newCrc (r : Half) : Instr → Half
  | .crcLd v => v
  | .crcStep b => crcStep Config.poly r b
  | .crcRd => r
  | .crcFin => r
  | .fbWr _ _ => r
  | .fbRd _ => r
  | .fcCompact _ => r

theorem newCrc_of_ne {i : Instr} (hld : ∀ v, i ≠ .crcLd v) (hstep : ∀ b, i ≠ .crcStep b) (r : Half) :
    newCrc r i = r := by
  cases i with
  | crcLd v => exact absurd rfl (hld v)
  | crcStep b => exact absurd rfl (hstep b)
  | crcRd => rfl
  | crcFin => rfl
  | fbWr _ _ => rfl
  | fbRd _ => rfl
  | fcCompact _ => rfl

/-- Every command answers, and leaves `newCrc` in the register. -/
theorem exec_crc (i : Instr) (s : State) : ∃ t, exec i s = .next t ∧ t.crc = newCrc s.crc i := by
  cases i with
  | crcLd v => exact ⟨_, rfl, rfl⟩
  | crcStep b => exact ⟨_, rfl, rfl⟩
  | crcRd => exact ⟨_, rfl, rfl⟩
  | crcFin => exact ⟨_, rfl, rfl⟩
  | fbWr a d => exact ⟨_, rfl, rfl⟩
  | fbRd a => exact ⟨_, rfl, rfl⟩
  | fcCompact len =>
    obtain ⟨m, d, r, h⟩ := exec_frameUnit (b := .fcCompact len) rfl s
    exact ⟨_, h s.crc s.rsp, rfl⟩

/-- What a word leaves in the register (R11): the first clause of O26. -/
theorem execute_crc (cw : CommandWord) (s : State) : ∃ t, execute cw s = .next t ∧
    (∀ v, decode cw = .ok (.crcLd v) → t.crc = v) ∧
    (∀ b, decode cw = .ok (.crcStep b) → t.crc = crcStep Config.poly s.crc b) ∧
    ((∀ v, decode cw ≠ .ok (.crcLd v)) → (∀ b, decode cw ≠ .ok (.crcStep b)) → t.crc = s.crc) := by
  cases hd : decode cw with
  | ok i =>
    obtain ⟨t, ht, hcrc⟩ := exec_crc i s
    refine ⟨t, (execute_of_decode hd s).trans ht, fun v hv => ?_, fun b hb => ?_, fun hld hstep => ?_⟩
    · cases hv
      exact hcrc
    · cases hb
      exact hcrc
    · exact hcrc.trans (newCrc_of_ne (fun v e => hld v (congrArg _ e)) (fun b e => hstep b (congrArg _ e)) _)
  | error why => exact ⟨_, execute_of_illegal hd s, nofun, nofun, fun _ _ => rfl⟩

/-- A word that is not a CRC command neither reads nor writes the register (R11): the last clause of O26. -/
theorem execute_setCrc_of_not_crcUnit {cw : CommandWord} {s t : State}
    (hframe : ∀ i, decode cw = .ok i → i.isCrcUnit = false) (h : execute cw s = .next t) (v : Half) :
    execute cw { s with crc := v } = .next { t with crc := v } := by
  cases hd : decode cw with
  | ok i =>
    rw [execute_of_decode hd] at h ⊢
    obtain ⟨m, d, r, hexec⟩ := exec_frameUnit (hframe i hd) s
    cases h.symm.trans (hexec s.crc s.rsp)
    exact hexec v s.rsp
  | error why =>
    rw [execute_of_illegal hd] at h ⊢
    cases h
    rfl

/-- Settles O26: by the command that a word decodes to; the frame unit's rule gives independence of `CRC`. -/
theorem crcAccessByCommand : Obligations.CrcAccessByCommand :=
  ⟨execute_crc, fun _ _ _ => rfl, fun _ _ _ v hframe h => execute_setCrc_of_not_crcUnit hframe h v⟩

/-! ### O28: the two units -/

/-- Settles O28: the CRC unit's rule holds for every buffer, the frame unit's for every register, so each can be applied
after the other. -/
theorem theTwoUnitsAreIndependent : Obligations.TheTwoUnitsAreIndependent := by
  intro a b s ha hb
  obtain ⟨v, ra, hcrc⟩ := exec_crcUnit ha s
  obtain ⟨m, d, rb, hframe⟩ := exec_frameUnit hb s
  refine ⟨fun m' => ⟨_, hcrc s.fb s.draws s.rsp, rfl, hcrc m' s.draws s.rsp⟩,
    fun v' => ⟨_, hframe s.crc s.rsp, rfl, hframe v' s.rsp⟩, ?_⟩
  exact ⟨_, _, _, _, hcrc s.fb s.draws s.rsp, hframe s.crc s.rsp, hframe v ra, hcrc m d rb,
    rfl, rfl, rfl, rfl, rfl, rfl⟩

/-! ### O29: any content is reachable -/

/-- A step that is offered a command's word runs the command. -/
theorem step_encode {s : State} {i : Instr} {rest : List HostInput} (h : s.inputs = .command (encode i) :: rest) :
    step s = exec i { s with inputs := rest } :=
  (step_command h).trans (execute_of_decode (decode_encode i) _)

theorem fbLoadCommands_length (a : Nat) (data : List Byte) : (fbLoadCommands a data).length = data.length := by
  induction data generalizing a with
  | nil => rfl
  | cons b rest ih => exact congrArg (· + 1) (ih (a + 1))

/-- The commands of FB.LOAD (R50), run by the machine, write the bytes in a row and keep `CRC` and the draws. -/
theorem run_fbLoadCommands {data : List Byte} {a : Nat} {s : State} (ha : a + data.length ≤ Config.fbSize)
    (hin : s.inputs = (fbLoadCommands a data).map fun i => HostInput.command (encode i)) :
    ∃ t, run data.length s = .next t ∧
      t.fb = s.fb.writeBytes a data ∧ t.crc = s.crc ∧ t.inputs = [] ∧ t.draws = s.draws := by
  induction data generalizing a s with
  | nil => exact ⟨s, rfl, rfl, rfl, hin, rfl⟩
  | cons b rest ih =>
    rw [List.length_cons] at ha
    have haddr : effectiveAddr (BitVec.ofNat 8 a) = a :=
      Nat.mod_eq_of_lt (show a < Config.fbSize by omega)
    have hstep := step_encode hin
    rw [exec, execFbWr, haddr] at hstep
    obtain ⟨t, hrun, hfields⟩ := ih (a := a + 1)
      (s := (State.writeByte a b { s with inputs := _ }).respond 0x0000) (by omega) rfl
    exact ⟨t, (run_succ hstep rest.length).trans hrun, hfields⟩

/-- Settles O29: CRC.LD sets the register, and FB.LOAD of all 256 cells of `m` leaves `m` whatever the buffer held. -/
theorem everyContentIsReachable : Obligations.EveryContentIsReachable := by
  intro s v m hinv hm
  have hlen : (m.readBytes 0 256).length = 256 := Memory.readBytes_length m 0 256
  refine ⟨(fbLoadCommands_length 0 _).trans hlen, ?_⟩
  obtain ⟨t, hrun, hfb, hcrc, hin, -⟩ := run_fbLoadCommands (a := 0) (data := m.readBytes 0 256)
    (s := (State.setCrc v { s with
      inputs := (fbLoadCommands 0 (m.readBytes 0 256)).map fun i => HostInput.command (encode i) }).respond 0x0000)
    (by rw [hlen]; decide) rfl
  rw [hlen] at hrun
  exact ⟨t, (run_succ (step_encode (i := .crcLd v) rfl) 256).trans hrun, hcrc,
    hfb.trans (Memory.writeBytes_readBytes_fbSize hm hinv.fb_wf), hin⟩

end Sys2Proof.Machine

/-! ## Rules that the statements of the encoding family need -/

namespace Sys2Proof

/-! ### A word decodes to the command whose word it is -/

theorem eq_formatI16_iff {cw : CommandWord} {a : Byte} {v : Half} :
    cw = formatI16 a v ↔ op cw = a ∧ imm16 cw = v := by
  constructor
  · rintro rfl
    exact ⟨op_formatI16 .., imm16_formatI16 ..⟩
  · rintro ⟨rfl, rfl⟩
    exact (formatI16_fields cw).symm

/-- A word that decodes to a command is that command's word (R42, R43): the other half of the round trip. -/
theorem eq_encode_of_decode {cw : CommandWord} {i : Instr} (h : decode cw = .ok i) : cw = encode i := by
  unfold decode at h
  split_ifs at h with hop hop hz hop hz hop hz hop hop hz hop hz <;> cases h
  · exact eq_formatI16_iff.2 ⟨hop, rfl⟩
  · exact eq_formatAD_iff.2 ⟨hop, hz, rfl⟩
  · exact eq_formatAD_iff.2 ⟨hop, (imm16_eq_zero_iff cw).1 hz⟩
  · exact eq_formatAD_iff.2 ⟨hop, (imm16_eq_zero_iff cw).1 hz⟩
  · exact eq_formatAD_iff.2 ⟨hop, rfl, rfl⟩
  · exact eq_formatAD_iff.2 ⟨hop, rfl, hz⟩
  · exact eq_formatAD_iff.2 ⟨hop, hz, rfl⟩

theorem decode_eq_ok_iff {cw : CommandWord} {i : Instr} : decode cw = .ok i ↔ cw = encode i :=
  ⟨eq_encode_of_decode, fun h => h ▸ decode_encode i⟩

theorem encode_injective : Function.Injective encode := fun i _ h =>
  Except.ok.inj ((decode_encode i).symm.trans (decode_eq_ok_iff.2 h))

/-! ### Masking a word, byte by byte; the words of each format of R42 by mask and match -/

theorem and_eq_formatAD_iff {cw : CommandWord} {a b c x y z : Byte} :
    cw &&& formatAD x y z = formatAD a b c ↔ op cw &&& x = a ∧ hi8 cw &&& y = b ∧ lo8 cw &&& z = c := by
  conv_lhs => rw [← formatAD_fields cw, and_formatAD]
  rw [eq_formatAD_iff, op_formatAD, hi8_formatAD, lo8_formatAD]

theorem and_0xFF (a : Byte) : a &&& 0xFF = a := BitVec.and_allOnes

/-- The mask of formats I16 and AD looks at the opcode byte alone. -/
theorem and_0xFF0000_eq_iff {cw : CommandWord} {a : Byte} : cw &&& 0xFF0000 = formatAD a 0 0 ↔ op cw = a := by
  rw [show (0xFF0000 : CommandWord) = formatAD 0xFF 0 0 by decide, and_eq_formatAD_iff, and_0xFF]
  simp

theorem eq_formatI16_iff_masked {cw : CommandWord} {a : Byte} {v : Half} :
    cw = formatI16 a v ↔ cw &&& 0xFF0000 = formatAD a 0 0 ∧ v = imm16 cw := by
  rw [eq_formatI16_iff, and_0xFF0000_eq_iff, eq_comm (a := v)]

theorem eq_formatAD_iff_masked {cw : CommandWord} {a b c : Byte} :
    cw = formatAD a b c ↔ cw &&& 0xFF0000 = formatAD a 0 0 ∧ b = hi8 cw ∧ c = lo8 cw := by
  rw [eq_formatAD_iff, and_0xFF0000_eq_iff, eq_comm (a := b), eq_comm (a := c)]

theorem eq_formatB_iff_masked {cw : CommandWord} {a b : Byte} :
    cw = formatB a b ↔ cw &&& 0xFFFF00 = formatAD a 0 0 ∧ b = lo8 cw := by
  rw [show (0xFFFF00 : CommandWord) = formatAD 0xFF 0xFF 0 by decide, and_eq_formatAD_iff, formatB,
    eq_formatAD_iff, and_0xFF, and_0xFF, eq_comm (a := b)]
  simp [and_assoc]

theorem eq_formatA_iff_masked {cw : CommandWord} {a b : Byte} :
    cw = formatA a b ↔ cw &&& 0xFF00FF = formatAD a 0 0 ∧ b = hi8 cw := by
  rw [show (0xFF00FF : CommandWord) = formatAD 0xFF 0 0xFF by decide, and_eq_formatAD_iff, formatA,
    eq_formatAD_iff, and_0xFF, and_0xFF, eq_comm (a := b)]
  simp [and_assoc, and_comm]

theorem eq_formatZ_iff_masked {cw : CommandWord} {a : Byte} : cw = formatZ a ↔ cw &&& 0xFFFFFF = formatAD a 0 0 := by
  rw [show (0xFFFFFF : CommandWord) = BitVec.allOnes 24 by decide, BitVec.and_allOnes, formatZ]

/-! ### O1: the rows of the table -/

/-- Each row of R43 by its mask and match, from the format of its command's word: the first clause of O1. -/
theorem decode_eq_ok_iff_masked (cw : CommandWord) :
    (∀ v, decode cw = .ok (.crcLd v) ↔ cw &&& 0xFF0000 = 0x110000 ∧ v = imm16 cw) ∧
    (∀ b, decode cw = .ok (.crcStep b) ↔ cw &&& 0xFFFF00 = 0x120000 ∧ b = lo8 cw) ∧
    (decode cw = .ok .crcRd ↔ cw &&& 0xFFFFFF = 0x130000) ∧
    (decode cw = .ok .crcFin ↔ cw &&& 0xFFFFFF = 0x140000) ∧
    (∀ a d, decode cw = .ok (.fbWr a d) ↔ cw &&& 0xFF0000 = 0x210000 ∧ a = hi8 cw ∧ d = lo8 cw) ∧
    (∀ a, decode cw = .ok (.fbRd a) ↔ cw &&& 0xFF00FF = 0x220000 ∧ a = hi8 cw) ∧
    (∀ l, decode cw = .ok (.fcCompact l) ↔ cw &&& 0xFFFF00 = 0x230000 ∧ l = lo8 cw) :=
  ⟨fun _ => decode_eq_ok_iff.trans eq_formatI16_iff_masked,
    fun _ => decode_eq_ok_iff.trans eq_formatB_iff_masked,
    decode_eq_ok_iff.trans eq_formatZ_iff_masked,
    decode_eq_ok_iff.trans eq_formatZ_iff_masked,
    fun _ _ => decode_eq_ok_iff.trans eq_formatAD_iff_masked,
    fun _ => decode_eq_ok_iff.trans eq_formatA_iff_masked,
    fun _ => decode_eq_ok_iff.trans eq_formatB_iff_masked⟩

theorem Row.selects_iff {r : Row} {cw : CommandWord} : r.selects cw = true ↔ cw &&& r.maskBits = r.matchBits :=
  beq_iff_eq

theorem op_and (x y : CommandWord) : op (x &&& y) = op x &&& op y := BitVec.extractLsb'_and

/-- The mask of every row covers the whole opcode byte, so a row selects words of its own opcode only. -/
theorem op_eq_of_selects {r : Row} {cw : CommandWord} (hr : r ∈ opcodeTable) (h : r.selects cw = true) :
    op cw = op r.matchBits := by
  have hmask : ∀ r ∈ opcodeTable, op r.maskBits = 0xFF := by decide
  rw [← Row.selects_iff.1 h, op_and, hmask r hr, and_0xFF]

/-- No two rows have the same opcode, so no word selects two of them (R43). -/
theorem opcodeTable_pairwise_disjoint (cw : CommandWord) :
    opcodeTable.Pairwise fun r r' => ¬ (r.selects cw = true ∧ r'.selects cw = true) := by
  have hop : opcodeTable.Pairwise fun r r' => op r.matchBits ≠ op r'.matchBits := by decide
  refine hop.imp_of_mem fun hr hr' hne => ?_
  rintro ⟨h, h'⟩
  exact hne ((op_eq_of_selects hr h).symm.trans (op_eq_of_selects hr' h'))

/-- Settles O1: each command's word is the format of its row, and the opcodes of the rows differ. -/
theorem decodeSelectsTheTableRow : Obligations.DecodeSelectsTheTableRow :=
  ⟨decode_eq_ok_iff_masked, opcodeTable_pairwise_disjoint⟩

/-! ### O3: the legal words -/

/-- The word of every command is well formed (R43). -/
theorem wellFormedWord_encode (i : Instr) : wellFormedWord (encode i) = true := by
  cases i with
  | crcLd v => exact Laws.EncodesWellFormedWord.crcLd v
  | crcStep b => exact Laws.EncodesWellFormedWord.crcStep b
  | crcRd => exact Laws.EncodesWellFormedWord.crcRd
  | crcFin => exact Laws.EncodesWellFormedWord.crcFin
  | fbWr a d => exact Laws.EncodesWellFormedWord.fbWr a d
  | fbRd a => exact Laws.EncodesWellFormedWord.fbRd a
  | fcCompact l => exact Laws.EncodesWellFormedWord.fcCompact l

theorem exists_decode_of_selects {r : Row} {cw : CommandWord} (hr : r ∈ opcodeTable) (h : r.selects cw = true) :
    ∃ i, decode cw = .ok i := by
  obtain ⟨hld, hstep, hrd, hfin, hfbWr, hfbRd, hcompact⟩ := decode_eq_ok_iff_masked cw
  rw [Row.selects_iff] at h
  simp only [opcodeTable, List.mem_cons, List.not_mem_nil, or_false] at hr
  rcases hr with rfl | rfl | rfl | rfl | rfl | rfl | rfl
  · exact ⟨_, (hld _).2 ⟨h, rfl⟩⟩
  · exact ⟨_, (hstep _).2 ⟨h, rfl⟩⟩
  · exact ⟨_, hrd.2 h⟩
  · exact ⟨_, hfin.2 h⟩
  · exact ⟨_, (hfbWr _ _).2 ⟨h, rfl, rfl⟩⟩
  · exact ⟨_, (hfbRd _).2 ⟨h, rfl⟩⟩
  · exact ⟨_, (hcompact _).2 ⟨h, rfl⟩⟩

theorem wellFormedWord_iff (cw : CommandWord) : wellFormedWord cw = true ↔ ∃ i, decode cw = .ok i := by
  constructor
  · intro h
    obtain ⟨r, hr, hsel⟩ := List.any_eq_true.1 h
    exact exists_decode_of_selects hr hsel
  · rintro ⟨i, h⟩
    exact eq_encode_of_decode h ▸ wellFormedWord_encode i

/-- The well-formed words are the words of the commands. -/
theorem encode_bijective_wellFormed :
    Function.Bijective fun i : Instr =>
      (⟨encode i, wellFormedWord_encode i⟩ : { cw : CommandWord // wellFormedWord cw = true }) := by
  refine ⟨fun _ _ h => encode_injective (congrArg Subtype.val h), ?_⟩
  rintro ⟨cw, hcw⟩
  obtain ⟨i, hi⟩ := (wellFormedWord_iff cw).1 hcw
  exact ⟨i, Subtype.ext (eq_encode_of_decode hi).symm⟩

/-- A command is its row of the table with the row's operands. -/
def Instr.operandsEquiv : Instr ≃ Half ⊕ Byte ⊕ Unit ⊕ Unit ⊕ (Byte × Byte) ⊕ Byte ⊕ Byte where
  toFun
    | .crcLd v => .inl v
    | .crcStep b => .inr (.inl b)
    | .crcRd => .inr (.inr (.inl ()))
    | .crcFin => .inr (.inr (.inr (.inl ())))
    | .fbWr a d => .inr (.inr (.inr (.inr (.inl (a, d)))))
    | .fbRd a => .inr (.inr (.inr (.inr (.inr (.inl a)))))
    | .fcCompact l => .inr (.inr (.inr (.inr (.inr (.inr l)))))
  invFun
    | .inl v => .crcLd v
    | .inr (.inl b) => .crcStep b
    | .inr (.inr (.inl ())) => .crcRd
    | .inr (.inr (.inr (.inl ()))) => .crcFin
    | .inr (.inr (.inr (.inr (.inl (a, d))))) => .fbWr a d
    | .inr (.inr (.inr (.inr (.inr (.inl a))))) => .fbRd a
    | .inr (.inr (.inr (.inr (.inr (.inr l))))) => .fcCompact l
  left_inv i := by cases i <;> rfl
  right_inv := by rintro (_ | _ | _ | _ | _ | _ | _) <;> rfl

theorem card_bitVec (w : Nat) : Nat.card (BitVec w) = 2 ^ w := by
  rw [Nat.card_eq_fintype_card, ← FinEnum.card_eq_fintypeCard, FinEnum.card_bitVec]

/-- R45's sum over the rows: 2^16 + 2^8 + 1 + 1 + 2^16 + 2^8 + 2^8. -/
theorem card_instr : Nat.card Instr = 131842 := by
  rw [Nat.card_congr Instr.operandsEquiv]
  simp only [Nat.card_sum, Nat.card_prod, Nat.card_unique, card_bitVec]
  norm_num

end Sys2Proof

namespace Sys2Proof.Machine

/-- A word that is not well formed raises IllegalCommand, which changes the response alone (R102). -/
theorem execute_of_not_wellFormed {cw : CommandWord} (h : wellFormedWord cw = false) (s : State) :
    execute cw s = .next (s.raise (.illegalCommand cw)) := by
  cases hd : decode cw with
  | ok i => rw [(wellFormedWord_iff cw).2 ⟨i, hd⟩] at h; cases h
  | error why => exact execute_of_illegal hd s

/-- Settles O3: the well-formed words are counted as the commands they encode. -/
theorem legalWordsAreCounted : Obligations.LegalWordsAreCounted :=
  ⟨(Nat.card_eq_of_bijective _ encode_bijective_wellFormed).symm.trans card_instr, wellFormedWord_iff,
    fun _ s h => execute_of_not_wellFormed h s⟩

/-! ### The loop of FC.COMPACT answers the closed form of R91 -/

theorem compactIter_rem (c : Compaction) : (compactIter c).rem = c.rem - 18 := by
  by_cases h0 : c.rem = 0
  · rw [compactIter_done h0, h0]
  · by_cases h : 18 ≤ c.rem
    · rw [compactIter_full h]
    · rw [compactIter_partial h0 (by omega)]
      dsimp only
      omega

theorem iterate_compactIter_rem (c : Compaction) (k : Nat) : (compactIter^[k] c).rem = c.rem - 18 * k := by
  induction k with
  | zero => rfl
  | succ k ih =>
    rw [Function.iterate_succ_apply', compactIter_rem, ih]
    omega

/-- Fourteen iterations end the loop for every length of 8 bits (R94). -/
theorem compactLoop_rem (m : Memory) {l : Nat} (hl : l ≤ 255) : (compactLoop m l).rem = 0 := by
  rw [compactLoop, iterate_compactIter_rem]
  simp only [compactStart, Config.skip, Config.maxIterations]
  omega

/-- What `written` will be when the loop has ended: no iteration changes it. -/
def Compaction.finalWritten (c : Compaction) : Nat := c.written + 16 * (c.rem / 18) + (c.rem % 18 - 2)

theorem compactIter_finalWritten (c : Compaction) : (compactIter c).finalWritten = c.finalWritten := by
  by_cases h0 : c.rem = 0
  · rw [compactIter_done h0]
  · by_cases h : 18 ≤ c.rem
    · rw [compactIter_full h]
      simp only [Compaction.finalWritten]
      omega
    · rw [compactIter_partial h0 (by omega)]
      simp only [Compaction.finalWritten]
      omega

theorem iterate_compactIter_finalWritten (c : Compaction) (k : Nat) :
    (compactIter^[k] c).finalWritten = c.finalWritten := by
  induction k with
  | zero => rfl
  | succ k ih => rw [Function.iterate_succ_apply', compactIter_finalWritten, ih]

theorem finalWritten_of_rem_eq_zero {c : Compaction} (h : c.rem = 0) : c.finalWritten = c.written := by
  simp [Compaction.finalWritten, h]

theorem compactStart_finalWritten (m : Memory) (l : Nat) : (compactStart m l).finalWritten = newLen l := by
  rw [newLen, satSub_eq]
  rfl

/-- The loop writes up to the new length (R91). -/
theorem compactLoop_written (m : Memory) {l : Nat} (hl : l ≤ 255) : (compactLoop m l).written = newLen l := by
  rw [← finalWritten_of_rem_eq_zero (compactLoop_rem m hl), compactLoop, iterate_compactIter_finalWritten,
    compactStart_finalWritten]

theorem newLen_bounds {l : Nat} (hl : l ≤ 255) : 10 ≤ newLen l ∧ newLen l ≤ 225 := by
  simp only [newLen, satSub_eq, Config.hdr, Config.keep, Config.skip, Config.group, Config.drop]
  omega

/-! ### O31: the response values -/

/-- R48's table: the response value of a command that ends with status 0 in `s`. -/
def okValue (s : State) : Instr → Half
  | .crcLd _ => 0x0000
  | .crcStep b => crcStep Config.poly s.crc b
  | .crcRd => s.crc
  | .crcFin => not16 s.crc
  | .fbWr _ _ => 0x0000
  | .fbRd a => zext16 (s.fb.read (effectiveAddr a))
  | .fcCompact len => BitVec.ofNat 16 (newLen len.toNat)

/-- A command that is no FC.COMPACT of a length below 12 responds with status 0 and the table's value. -/
theorem exec_rsp_ok {i : Instr} (hlen : ∀ len, i = .fcCompact len → 12 ≤ len.toNat) {s t : State}
    (h : exec i s = .next t) : t.rsp = some (okResponse (okValue s i)) := by
  cases i with
  | crcLd v => cases h; rfl
  | crcStep b => cases h; rfl
  | crcRd => cases h; rfl
  | crcFin => cases h; rfl
  | fbWr a d => cases h; rfl
  | fbRd a => cases h; rfl
  | fcCompact len =>
    rw [exec_fcCompact_legal (Nat.not_lt.2 (hlen len rfl))] at h
    cases h
    rw [okValue, ← compactLoop_written s.fb (Nat.le_of_lt_succ len.isLt)]

theorem execute_rsp_ok {cw : CommandWord} {i : Instr} (hd : decode cw = .ok i)
    (hlen : ∀ len, i = .fcCompact len → 12 ≤ len.toNat) {s t : State} (h : execute cw s = .next t) :
    t.rsp = some (okResponse (okValue s i)) :=
  exec_rsp_ok hlen ((execute_of_decode hd s).symm.trans h)

/-- Settles O31: by the table of response values, and the bounds of the new length. -/
theorem okResponseValues : Obligations.OkResponseValues := by
  intro cw s
  obtain ⟨t, ht, -, hcrc, -⟩ := execute_crc cw s
  refine ⟨t, ht, fun v hd => execute_rsp_ok hd nofun ht, fun b hd => ?_, fun hd => execute_rsp_ok hd nofun ht,
    fun hd => execute_rsp_ok hd nofun ht, fun a d hd => execute_rsp_ok hd nofun ht,
    fun a hd => execute_rsp_ok hd nofun ht, fun l hd hl => ?_⟩
  · have hrsp := execute_rsp_ok hd nofun ht
    exact ⟨hrsp, by rw [hcrc b hd]; exact hrsp⟩
  · exact ⟨execute_rsp_ok hd (by rintro _ ⟨⟩; exact hl) ht, newLen_bounds (Nat.le_of_lt_succ l.isLt)⟩

end Sys2Proof.Machine

/-! ## Rules that the statements of the CRC family need -/

namespace Sys2Proof

/-! ### Words of the CRC unit, by opcode (R43) -/

theorem decode_of_op_crcStep {cw : CommandWord} (h : op cw = 0x12) :
    decode cw = if hi8 cw = 0 then .ok (.crcStep (lo8 cw)) else .error .mustBeZeroBitSet := by
  simp [decode, h]

theorem decode_of_op_crcRd {cw : CommandWord} (h : op cw = 0x13) :
    decode cw = if imm16 cw = 0 then .ok .crcRd else .error .mustBeZeroBitSet := by
  simp [decode, h]

theorem decode_of_op_crcFin {cw : CommandWord} (h : op cw = 0x14) :
    decode cw = if imm16 cw = 0 then .ok .crcFin else .error .mustBeZeroBitSet := by
  simp [decode, h]

/-- A word with no operand is its opcode alone, so any other word of that opcode has an operand bit set. -/
theorem imm16_ne_zero_of_ne {cw : CommandWord} {a : Byte} (hop : op cw = a) (h : cw ≠ formatI16 a 0) :
    imm16 cw ≠ 0 :=
  fun hz => h (eq_formatI16_iff.2 ⟨hop, hz⟩)

end Sys2Proof

namespace Sys2Proof.Machine

/-- IllegalCommand reports the opcode byte and changes nothing but the response (R100, R102). -/
theorem execute_of_mustBeZeroBitSet {cw : CommandWord} {a : Byte} (h : decode cw = .error .mustBeZeroBitSet)
    (hop : op cw = a) (s : State) : execute cw s = .next { s with rsp := some ⟨2, zext16 a⟩ } :=
  hop ▸ execute_of_illegal h s

/-! ### O5: the bit step -/

/-- A bit step shifts, and adds the polynomial where the feedback bit `r[15] xor d` is set (R61). -/
theorem getLsbD_crcBit (poly r : Half) (d : Bool) (i : Nat) :
    (crcBit poly r d).getLsbD i = ((shl1 r).getLsbD i ^^ ((r.getLsbD 15 ^^ d) && poly.getLsbD i)) := by
  unfold crcBit
  cases r.getLsbD 15 ^^ d <;> simp

theorem getLsbD_shl1_zero (r : Half) : (shl1 r).getLsbD 0 = false := by
  simp [shl1]

theorem getLsbD_shl1_of_pos (r : Half) {i : Nat} (h1 : 1 ≤ i) (h15 : i ≤ 15) :
    (shl1 r).getLsbD i = r.getLsbD (i - 1) := by
  simp only [shl1, BitVec.getLsbD_shiftLeft, show i < 16 by omega, show ¬ i < 1 by omega, decide_true, decide_false,
    Bool.not_false, Bool.true_and]

/-- The bits of the literal 0x8005 (R61). -/
theorem getLsbD_0x8005_iff (i : Nat) : (0x8005 : Half).getLsbD i = true ↔ i = 15 ∨ i = 2 ∨ i = 0 := by
  have hsmall : ∀ i < 16, (0x8005 : Half).getLsbD i = true ↔ i = 15 ∨ i = 2 ∨ i = 0 := by decide
  by_cases hi : i < 16
  · exact hsmall i hi
  · rw [BitVec.getLsbD_of_ge _ _ (by omega)]
    exact iff_of_false Bool.false_ne_true (by omega)

/-- Settles O5: bit by bit, from the shift and the feedback bit. -/
theorem crcBitIsTheShiftRegisterStep : Obligations.CrcBitIsTheShiftRegisterStep := by
  refine fun poly r d => ⟨rfl, ?_, fun i h1 h15 => ?_, getLsbD_0x8005_iff⟩
  · rw [getLsbD_crcBit, getLsbD_shl1_zero, Bool.false_xor]
  · rw [getLsbD_crcBit, getLsbD_shl1_of_pos r h1 h15]

/-! ### O6: the byte step and the source's loop -/

/-- After `k` shifts bit 7 of the copy is bit `7 - k` of the byte, whatever width the copy is kept to (R62). -/
theorem getLsbD_seven_shiftLeft (b : Byte) {w k : Nat} (hw : 8 ≤ w) (hk : k < 8) :
    (b.setWidth w <<< k).getLsbD 7 = b.getLsbD (7 - k) := by
  simp [show 7 < w by omega, show ¬ 7 < k by omega]

/-- Masked to bit 7, two words differ exactly when their bits 7 do. -/
theorem and_0x80_ne_iff (x y : Half) : x &&& 0x80 ≠ y &&& 0x80 ↔ (x.getLsbD 7 ^^ y.getLsbD 7) = true := by
  rw [show (0x80 : Half) = BitVec.twoPow 16 7 by decide, BitVec.and_twoPow, BitVec.and_twoPow]
  cases x.getLsbD 7 <;> cases y.getLsbD 7 <;> decide

/-- One iteration of the source's loop is a bit step with bit 7 of the copy, which it shifts (R62). -/
theorem crcRefIter_eq (poly r : Half) (c : Byte) :
    crcRefIter poly (r, c) = (crcBit poly r (c.getLsbD 7), c <<< 1) := by
  have hr : (r >>> 8).getLsbD 7 = r.getLsbD 15 := BitVec.getLsbD_ushiftRight ..
  have hc : (zext16 c).getLsbD 7 = c.getLsbD 7 := by simp [zext16]
  have hmask : (r <<< 1) &&& 0xFFFF = shl1 r := BitVec.and_allOnes
  simp only [crcRefIter, and_0x80_ne_iff, hr, hc, hmask, crcBit]

/-- The byte step counts the bits of the byte from the top: bit `7 - i` at step `i` (R62). -/
theorem crcStep_eq_foldl_range (poly r : Half) (b : Byte) :
    crcStep poly r b = (List.range 8).foldl (fun acc i => crcBit poly acc (b.getLsbD (7 - i))) r := rfl

/-- `k` iterations of the source's loop are bit steps with the top `k` bits of the byte. -/
theorem iterate_crcRefIter (poly r : Half) (b : Byte) {k : Nat} (hk : k ≤ 8) :
    (crcRefIter poly)^[k] (r, b)
      = ((List.range k).foldl (fun acc i => crcBit poly acc (b.getLsbD (7 - i))) r, b <<< k) := by
  induction k with
  | zero => simp
  | succ k ih =>
    have hbit : (b <<< k).getLsbD 7 = b.getLsbD (7 - k) := by
      simpa using getLsbD_seven_shiftLeft b (w := 8) le_rfl hk
    rw [Function.iterate_succ_apply', ih (by omega), crcRefIter_eq, hbit, List.range_succ, List.foldl_append,
      BitVec.shiftLeft_add]
    rfl

theorem crcStepRef_eq_crcStep (poly r : Half) (b : Byte) : crcStepRef poly r b = crcStep poly r b := by
  rw [crcStepRef, iterate_crcRefIter poly r b le_rfl, crcStep_eq_foldl_range]

/-- Settles O6: each iteration of the source's loop is the bit step with the next lower bit of the byte. -/
theorem crcStepIsTheSourceLoop : Obligations.CrcStepIsTheSourceLoop :=
  fun poly r b => ⟨rfl, crcStepRef_eq_crcStep poly r b, fun _ _ => getLsbD_seven_shiftLeft b⟩

/-! ### O10, O12, O13: loading, reading and finishing -/

/-- Settles O10: the word is the encoding of CRC.LD. -/
theorem crcLdLoadsTheRegister : Obligations.CrcLdLoadsTheRegister :=
  fun v _ => ⟨decode_encode (.crcLd v), rfl⟩

/-- Settles O12: every other word of the opcode has an operand bit set. -/
theorem crcRdReturnsTheRegister : Obligations.CrcRdReturnsTheRegister := by
  refine ⟨fun _ => rfl, decode_encode .crcRd, fun cw s hop hne => execute_of_mustBeZeroBitSet ?_ hop s⟩
  rw [decode_of_op_crcRd hop, if_neg (imm16_ne_zero_of_ne hop hne)]

/-- Settles O13: the complement goes to the response alone; every other word of the opcode has an operand bit set. -/
theorem crcFinReturnsTheComplement : Obligations.CrcFinReturnsTheComplement := by
  refine ⟨fun _ => rfl, decode_encode .crcFin, fun cw s hop hne => execute_of_mustBeZeroBitSet ?_ hop s⟩
  rw [decode_of_op_crcFin hop, if_neg (imm16_ne_zero_of_ne hop hne)]

/-! ### O11: one byte -/

/-- A data bit equal to the register's top bit feeds nothing back. -/
theorem crcBit_top (poly r : Half) : crcBit poly r (r.getLsbD 15) = shl1 r := by
  simp [crcBit]

/-- A word of CRC.STEP's opcode with a must-be-zero bit set raises IllegalCommand (R65). -/
theorem execute_crcStep_malformed {cw : CommandWord} (hop : op cw = 0x12) (hz : hi8 cw ≠ 0) (s : State) :
    execute cw s = .next { s with rsp := some ⟨2, 0x0012⟩ } :=
  execute_of_mustBeZeroBitSet ((decode_of_op_crcStep hop).trans (if_neg hz)) hop s

/-- `k` bit steps with the top `k` bits of the register shift it, for every polynomial: no step feeds back. -/
theorem foldl_crcBit_highByte (poly r : Half) {k : Nat} (hk : k ≤ 8) :
    (List.range k).foldl (fun acc i => crcBit poly acc ((highByte r).getLsbD (7 - i))) r = r <<< k := by
  induction k with
  | zero => simp
  | succ k ih =>
    have htop : (highByte r).getLsbD (7 - k) = (r <<< k).getLsbD 15 := by
      simp only [highByte, BitVec.getLsbD_extractLsb', BitVec.getLsbD_shiftLeft, show 7 - k < 8 by omega,
        show ¬ 15 < k by omega, show 8 + (7 - k) = 15 - k by omega, decide_true, decide_false, Bool.not_false,
        Bool.true_and, Nat.lt_add_one]
    rw [List.range_succ, List.foldl_append, ih (by omega), List.foldl_cons, List.foldl_nil, htop, crcBit_top, shl1,
      BitVec.shiftLeft_add]

theorem shiftLeft_eight (r : Half) : r <<< 8 = (lowByte r).setWidth 16 <<< 8 := by
  apply BitVec.eq_of_getLsbD_eq
  intro i hi
  by_cases h8 : i < 8
  · simp [h8]
  · simp [lowByte, h8, hi, show i - 8 < 8 by omega, show i - 8 < 16 by omega]

theorem crcStep_highByte (poly r : Half) : crcStep poly r (highByte r) = (lowByte r).setWidth 16 <<< 8 := by
  rw [crcStep_eq_foldl_range, foldl_crcBit_highByte poly r le_rfl, shiftLeft_eight]

/-- Settles O11: the byte that cancels the register's high byte leaves its low byte shifted; the numbers of R65 are
evaluated. -/
theorem crcStepAppliesOneByte : Obligations.CrcStepAppliesOneByte :=
  ⟨fun b _ => ⟨decode_encode (.crcStep b), rfl⟩, fun _ s hop hz => execute_crcStep_malformed hop hz s,
    crcStep_highByte Config.poly, by decide⟩

/-! ### O14: the checksum -/

@[simp] theorem not16_not16 (x : Half) : not16 (not16 x) = x := by
  simp [not16]

/-- A step that is offered a command's word runs the command, for every polynomial. -/
theorem stepWith_encode {p : Parameters} {s : State} {i : Instr} {rest : List HostInput}
    (h : s.inputs = .command (encode i) :: rest) : stepWith p s = execWith p i { s with inputs := rest } :=
  (stepUsing_command h).trans (executeUsing_of_decode (decode_encode i) _)

/-- One CRC.STEP for each byte and then CRC.FIN: the register takes all the bytes, the last response is its
complement. -/
theorem runWith_crcSteps_crcFin {p : Parameters} {data : List Byte} {s : State}
    (hin : s.inputs = (data.map Instr.crcStep ++ [Instr.crcFin]).map fun i => HostInput.command (encode i)) :
    runWith p (data.length + 1) s = .next { s with
      crc := crcBytes p.poly s.crc data
      inputs := []
      rsp := some (okResponse (not16 (crcBytes p.poly s.crc data))) } := by
  induction data generalizing s with
  | nil => exact runWith_succ (stepWith_encode hin) 0
  | cons b rest ih =>
    have hstep := (stepWith_encode (p := p) hin).trans (execWith_crcStep p b _)
    exact (runWith_succ hstep (rest.length + 1)).trans (ih rfl)

/-- The commands of CHECKSUM (R50, R68), run by the machine with any polynomial. -/
theorem runWith_checksumCommands {p : Parameters} {data : List Byte} {s : State}
    (hin : s.inputs = (checksumCommands data).map fun i => HostInput.command (encode i)) :
    runWith p (data.length + 2) s = .next { s with
      crc := not16 (checksum p.poly data)
      inputs := []
      rsp := some (okResponse (checksum p.poly data)) } := by
  rw [checksum, not16_not16]
  exact (runWith_succ (stepWith_encode hin) (data.length + 1)).trans (runWith_crcSteps_crcFin rfl)

theorem runWith_default (k : Nat) (s : State) : runWith {} k s = run k s := by
  unfold runWith coreWith
  rw [stepWith_default]
  exact core_run_eq_run k s

/-- Settles O14: CRC.LD starts the register, each CRC.STEP takes its byte, and CRC.FIN answers the complement. -/
theorem checksumCommandsComputeTheChecksum : Obligations.ChecksumCommandsComputeTheChecksum :=
  ⟨fun data _ hin => (runWith_default (data.length + 2) _).symm.trans (runWith_checksumCommands hin), fun _ => rfl,
    by decide⟩

end Sys2Proof.Machine

/-! ## Rules that the statements of the frame family need -/

namespace Sys2Proof

theorem formatA_eq (a b : Byte) : formatA a b = a.setWidth 24 <<< 16 ||| b.setWidth 24 <<< 8 := by
  simp [formatA, formatAD]

theorem decode_of_op_fbRd {cw : CommandWord} (h : op cw = 0x22) :
    decode cw = if lo8 cw = 0 then .ok (.fbRd (hi8 cw)) else .error .mustBeZeroBitSet := by
  simp [decode, h]

end Sys2Proof

namespace Sys2Proof.Machine

namespace Memory

theorem read_write_of_ne {m : Memory} {a a' : Nat} {b : Byte} (h : m.wf = true) (ha : a' ≠ a) :
    (m.write a b).read a' = m.read a' := by
  rw [read_write h, if_neg ha]

/-- Writing the byte that a cell holds leaves the buffer as it was (R84). -/
theorem write_read_self {m : Memory} {a : Nat} (h : m.wf = true) (ha : a < Config.fbSize) :
    m.write a (m.read a) = m := by
  refine eq_of_read_eq (wf_write h ha) h fun a' => ?_
  rw [read_write h]
  split
  · next heq => rw [heq]
  · rfl

theorem writeBytes_concat (m : Memory) (a : Nat) (bytes : List Byte) (b : Byte) :
    m.writeBytes a (bytes ++ [b]) = (m.writeBytes a bytes).write (a + bytes.length) b := by
  induction bytes generalizing m a with
  | nil => rfl
  | cons c rest ih =>
    rw [List.cons_append, writeBytes, ih, writeBytes, List.length_cons, Nat.add_right_comm, Nat.add_assoc]

theorem readBytes_succ (m : Memory) (a n : Nat) : m.readBytes a (n + 1) = m.readBytes a n ++ [m.read (a + n)] := by
  simp [readBytes, List.range_succ]

theorem wf_singleton {a : Nat} {b : Byte} (ha : a < Config.fbSize) (hb : b ≠ unwritten) :
    Memory.wf [(a, b)] = true := by
  simp [wf, risingFrom, ha, hb]

end Memory

/-! ### O15, O16: the byte accesses -/

theorem effectiveAddr_lt (addr : Byte) : effectiveAddr addr < Config.fbSize := addr.isLt

/-- Settles O15: read after write, and a canonical buffer is fixed by what it reads. -/
theorem fbWrStoresOneByte : Obligations.FbWrStoresOneByte := by
  intro addr data s hinv
  refine ⟨decode_encode (.fbWr addr data), _, rfl, rfl, ?_, fun a ha => Memory.read_write_of_ne hinv.fb_wf ha, ?_,
    rfl, rfl, rfl⟩
  · exact (Memory.read_write hinv.fb_wf).trans (if_pos rfl)
  · rintro rfl
    exact Memory.write_read_self hinv.fb_wf (effectiveAddr_lt addr)

/-- Settles O16: the word is the encoding of FB.RD; any other word of the opcode with a low byte is illegal. -/
theorem fbRdReturnsOneByte : Obligations.FbRdReturnsOneByte := by
  refine ⟨fun addr _ => ⟨?_, rfl⟩, fun cw s hop hz => execute_of_mustBeZeroBitSet ?_ hop s⟩
  · exact decode_eq_ok_iff.2 (formatA_eq 0x22 addr).symm
  · rw [decode_of_op_fbRd hop, if_neg hz]

/-! ### O17: the copy primitive -/

/-- The snapshot copy, one byte longer. -/
theorem copy_succ (m : Memory) (src dst n : Nat) :
    copy m src dst (n + 1) = (copy m src dst n).write (dst + n) (m.read (src + n)) := by
  rw [copy, Memory.readBytes_succ, Memory.writeBytes_concat, Memory.readBytes_length, copy]

theorem read_copy_inside {m : Memory} {src dst n i : Nat} (h : m.wf = true) (hd : dst + n ≤ Config.fbSize)
    (hi : i < n) : (copy m src dst n).read (dst + i) = m.read (src + i) := by
  rw [read_copy h hd, if_pos (by omega), Nat.add_sub_cancel_left]

theorem read_copy_outside {m : Memory} {src dst n a : Nat} (h : m.wf = true) (hd : dst + n ≤ Config.fbSize)
    (ha : a < dst ∨ dst + n ≤ a) : (copy m src dst n).read a = m.read a := by
  rw [read_copy h hd, if_neg (by omega)]

/-- The ascending copy, one byte longer: the last byte is copied last. -/
theorem copyAscending_succ (m : Memory) (src dst n : Nat) :
    copyAscending m src dst (n + 1)
      = (copyAscending m src dst n).write (dst + n) ((copyAscending m src dst n).read (src + n)) := by
  simp only [copyAscending, List.range_succ, List.foldl_append, List.foldl_cons, List.foldl_nil]

/-- The descending copy, one byte longer: the last byte is copied first. -/
theorem copyDescending_succ (m : Memory) (src dst n : Nat) :
    copyDescending m src dst (n + 1) = copyDescending (m.write (dst + n) (m.read (src + n))) src dst n := by
  simp [copyDescending, List.range_succ]

/-- Below its source, the ascending copy has written only cells that it has already read (R87). -/
theorem copyAscending_eq_copy {m : Memory} {src dst n : Nat} (h : m.wf = true) (hd : dst + n ≤ Config.fbSize)
    (hlt : dst < src) : copyAscending m src dst n = copy m src dst n := by
  induction n with
  | zero => rfl
  | succ n ih =>
    rw [copyAscending_succ, ih (by omega), copy_succ, read_copy_outside h (by omega) (by omega)]

theorem read_copyDescending_of_le {m : Memory} {src dst n a : Nat} (h : m.wf = true) (hd : dst + n ≤ Config.fbSize)
    (ha : dst + n ≤ a) : (copyDescending m src dst n).read a = m.read a := by
  induction n generalizing m with
  | zero => rfl
  | succ n ih =>
    rw [copyDescending_succ, ih (Memory.wf_write h (by omega)) (by omega) (by omega),
      Memory.read_write_of_ne h (by omega)]

/-- Below its source, the descending copy reads only cells that it has finished with, so in its result the destination
agrees with the source as it is then. -/
theorem read_copyDescending_dst_eq_src {m : Memory} {src dst n j : Nat} (h : m.wf = true)
    (hd : dst + n ≤ Config.fbSize) (hlt : dst < src) (hj : j < n) :
    (copyDescending m src dst n).read (dst + j) = (copyDescending m src dst n).read (src + j) := by
  induction n generalizing m with
  | zero => omega
  | succ n ih =>
    have hwf : (m.write (dst + n) (m.read (src + n))).wf = true := Memory.wf_write h (by omega)
    rw [copyDescending_succ]
    rcases Nat.lt_succ_iff_lt_or_eq.1 hj with hjn | rfl
    · exact ih hwf (by omega) hjn
    · rw [read_copyDescending_of_le hwf (by omega) le_rfl, read_copyDescending_of_le hwf (by omega) (by omega),
        Memory.read_write h, if_pos rfl, Memory.read_write_of_ne h (by omega)]

/-- Where the descending copy agrees with the snapshot copy over an overlap, the old byte at `src` repeats after the
distance of the copy. -/
theorem read_src_eq_of_copyDescending_eq_copy {m : Memory} {src dst n : Nat} (h : m.wf = true)
    (hd : dst + n ≤ Config.fbSize) (hlt : dst < src) (hn : src - dst < n)
    (heq : copyDescending m src dst n = copy m src dst n) : m.read src = m.read (src + (src - dst)) := by
  have hagree := read_copyDescending_dst_eq_src (j := 0) h hd hlt (by omega)
  have hsrc : src = dst + (src - dst) := by omega
  calc m.read src = (copy m src dst n).read dst := (read_copy_inside (i := 0) h hd (by omega)).symm
    _ = (copy m src dst n).read src := heq ▸ hagree
    _ = (copy m src dst n).read (dst + (src - dst)) := by rw [← hsrc]
    _ = m.read (src + (src - dst)) := read_copy_inside h hd hn

/-- One byte at `src` and none elsewhere: the descending copy brings to `dst` what it has put at `src` before. -/
theorem copyDescending_ne_copy {src dst n : Nat} (hlt : dst < src) (hn : src - dst < n)
    (hs : src + n ≤ Config.fbSize) : copyDescending [(src, 1)] src dst n ≠ copy [(src, 1)] src dst n := by
  intro heq
  have hread := read_src_eq_of_copyDescending_eq_copy (Memory.wf_singleton (by omega) (by decide)) (by omega) hlt hn heq
  have hfar : ¬ src = src + (src - dst) := by omega
  simp only [Memory.read, if_true, if_neg hfar] at hread
  exact absurd hread (by decide)

/-- Settles O17: the ascending copy by induction on the length; the descending one differs on a buffer of one byte. -/
theorem copyIsASnapshot : Obligations.CopyIsASnapshot := by
  refine ⟨fun m src dst n h _ hd => ⟨fun i hi => read_copy_inside h hd hi, fun a ha => read_copy_outside h hd ha, rfl,
    copyAscending_eq_copy h hd⟩, fun src dst n hlt hn hs => ?_⟩
  have hfb : Config.fbSize = 256 := rfl
  exact ⟨[(src, 1)], Memory.wf_singleton (by omega) (by decide), copyDescending_ne_copy hlt hn hs⟩

/-! ### O20: the new length -/

theorem newLen_eq (l : Nat) :
    newLen l = 10 + 16 * ((l - 12) / 18) + if 2 ≤ (l - 12) % 18 then (l - 12) % 18 - 2 else 0 := rfl

/-- R91 with the length as groups and a rest. -/
theorem newLen_groups (q : Nat) {r : Nat} (hr : r < 18) : newLen (12 + 18 * q + r) = 10 + 16 * q + (r - 2) := by
  have hdiv : (12 + 18 * q + r - 12) / 18 = q := by omega
  have hmod : (12 + 18 * q + r - 12) % 18 = r := by omega
  rw [newLen_eq, hdiv, hmod]
  split <;> omega

/-- One byte more makes the frame one byte longer, except as the first or second byte of a group (R91). -/
theorem newLen_pred {l : Nat} (hl : 12 < l) :
    newLen l = newLen (l - 1) + if (l - 12) % 18 = 1 ∨ (l - 12) % 18 = 2 then 0 else 1 := by
  obtain ⟨q, r, hr, rfl⟩ : ∃ q r, r < 18 ∧ l = 12 + 18 * q + r :=
    ⟨(l - 12) / 18, (l - 12) % 18, by omega, by omega⟩
  have hmod : (12 + 18 * q + r - 12) % 18 = r := by omega
  rw [hmod, newLen_groups q hr]
  cases r with
  | zero =>
    obtain ⟨p, rfl⟩ : ∃ p, q = p + 1 := ⟨q - 1, by omega⟩
    rw [show 12 + 18 * (p + 1) + 0 - 1 = 12 + 18 * p + 17 by omega, newLen_groups p (by omega), if_neg (by decide)]
    omega
  | succ r =>
    rw [← Nat.add_assoc, Nat.add_sub_cancel, newLen_groups q (by omega)]
    split <;> omega

/-- Each full group loses two bytes, the header two, the rest at most two (R91). -/
theorem sub_newLen {l : Nat} (hl : 12 ≤ l) : l - newLen l = 2 + 2 * ((l - 12) / 18) + min ((l - 12) % 18) 2 := by
  rw [newLen_eq]
  split <;> omega

/-- From every state FC.COMPACT with a legal length answers the new length (R91). -/
theorem exec_fcCompact_rsp {len : Byte} (hlen : 12 ≤ len.toNat) (s : State) :
    ∃ t, exec (.fcCompact len) s = .next t ∧ t.rsp = some (okResponse (BitVec.ofNat 16 (newLen len.toNat))) := by
  obtain ⟨t, ht, -⟩ := exec_crc (.fcCompact len) s
  exact ⟨t, ht, exec_rsp_ok (by rintro _ ⟨⟩; exact hlen) ht⟩

/-- Settles O20: the loop answers the closed form, whose growth by one byte is `newLen_pred`. -/
theorem compactReturnsTheNewLength : Obligations.CompactReturnsTheNewLength := by
  refine ⟨fun len s hlen => exec_fcCompact_rsp hlen s, fun l hl hl' => ?_⟩
  have hsub := sub_newLen hl
  refine ⟨newLen_eq l, hsub, by omega, by omega, by omega, fun hlt => ?_⟩
  rw [newLen_pred hlt]
  split <;> omega

/-! ### O21, O22: the cursors of the loop -/

/-- Everything an iteration can do: nothing, a full group, or the final partial group (R88). -/
theorem compactIter_cases (c : Compaction) :
    (c.rem = 0 ∧ compactIter c = c) ∨
    (18 ≤ c.rem ∧ compactIter c
      = { fb := copy c.fb c.rd c.wr 16, rd := c.rd + 18, wr := c.wr + 16, rem := c.rem - 18,
          written := c.written + 16 }) ∨
    ((c.rem ≠ 0 ∧ c.rem < 18) ∧ compactIter c
      = { fb := copy c.fb c.rd c.wr (c.rem - 2), rd := c.rd, wr := c.wr + (c.rem - 2), rem := 0,
          written := c.written + (c.rem - 2) }) := by
  by_cases h0 : c.rem = 0
  · exact .inl ⟨h0, compactIter_done h0⟩
  · by_cases h : 18 ≤ c.rem
    · exact .inr (.inl ⟨h, compactIter_full h⟩)
    · exact .inr (.inr ⟨⟨h0, Nat.not_le.1 h⟩, compactIter_partial h0 (Nat.not_le.1 h)⟩)

/-- Where `rd` will stand when the loop has ended: no iteration changes it. -/
def Compaction.finalRd (c : Compaction) : Nat := c.rd + 18 * (c.rem / 18)

theorem compactIter_finalRd (c : Compaction) : (compactIter c).finalRd = c.finalRd := by
  rcases compactIter_cases c with ⟨-, h⟩ | ⟨hrem, h⟩ | ⟨hrem, h⟩
  · rw [h]
  · rw [h]
    simp only [Compaction.finalRd]
    omega
  · rw [h]
    simp only [Compaction.finalRd]
    omega

theorem compactIter_wr_eq_written {c : Compaction} (hc : c.wr = c.written) :
    (compactIter c).wr = (compactIter c).written := by
  rcases compactIter_cases c with ⟨-, h⟩ | ⟨-, h⟩ | ⟨-, h⟩ <;> rw [h, hc]

theorem iterate_compactIter_finalRd (c : Compaction) (k : Nat) : (compactIter^[k] c).finalRd = c.finalRd := by
  induction k with
  | zero => rfl
  | succ k ih => rw [Function.iterate_succ_apply', compactIter_finalRd, ih]

theorem iterate_compactIter_wr_eq_written {c : Compaction} (hc : c.wr = c.written) (k : Nat) :
    (compactIter^[k] c).wr = (compactIter^[k] c).written := by
  induction k with
  | zero => exact hc
  | succ k ih =>
    rw [Function.iterate_succ_apply']
    exact compactIter_wr_eq_written ih

/-- What holds of the cursors at the start of iteration `k`, whether or not the loop has ended (R93). -/
theorem compact_cursors (m : Memory) (l k : Nat) :
    (compactIter^[k] (compactStart m l)).rem = l - 12 - 18 * k ∧
    (compactIter^[k] (compactStart m l)).finalRd = 12 + 18 * ((l - 12) / 18) ∧
    (compactIter^[k] (compactStart m l)).finalWritten = newLen l ∧
    (compactIter^[k] (compactStart m l)).wr = (compactIter^[k] (compactStart m l)).written :=
  ⟨iterate_compactIter_rem _ k, iterate_compactIter_finalRd _ k,
    (iterate_compactIter_finalWritten _ k).trans (compactStart_finalWritten m l),
    iterate_compactIter_wr_eq_written rfl k⟩

/-- The cursors of an iteration that runs, in closed form (R93). -/
theorem compact_cursors_running (m : Memory) {l k : Nat} (hk : 18 * k < l - 12) :
    (compactIter^[k] (compactStart m l)).rd = 12 + 18 * k ∧
    (compactIter^[k] (compactStart m l)).wr = 10 + 16 * k := by
  obtain ⟨hrem, hrd, hwritten, hwr⟩ := compact_cursors m l k
  rw [newLen_eq] at hwritten
  simp only [Compaction.finalRd, Compaction.finalWritten] at hrd hwritten
  split at hwritten <;> omega

/-- Settles O21: each iteration moves `rd` by a group and `wr` by the bytes kept. -/
theorem compactLoopCursors : Obligations.CompactLoopCursors := by
  intro m l k hl _
  obtain ⟨hrem, -, -, hwr⟩ := compact_cursors m l k
  refine ⟨hwr, fun hk => ?_⟩
  obtain ⟨hrd, hwr'⟩ := compact_cursors_running m hk
  rw [hrd, hwr', hrem]
  omega

/-- An iteration that runs reads below the last two bytes of the frame and writes below the new length (R94). -/
theorem compact_indices {m : Memory} {l k n i : Nat} (hk : 18 * k < l - 12)
    (hn : n = if 18 ≤ (compactIter^[k] (compactStart m l)).rem then 16
      else satSub (compactIter^[k] (compactStart m l)).rem 2) (hi : i < n) :
    (compactIter^[k] (compactStart m l)).rd + i ≤ l - 3 ∧
    (compactIter^[k] (compactStart m l)).wr + i ≤ newLen l - 1 := by
  obtain ⟨hrem, -, hwritten, hwr⟩ := compact_cursors m l k
  obtain ⟨hrd, -⟩ := compact_cursors_running m hk
  rw [Compaction.finalWritten] at hwritten
  rw [satSub_eq] at hn
  split at hn <;> omega

/-- Settles O22: the cursors' closed forms bound them, and `newLen` bounds what is written. -/
theorem compactLoopBounds : Obligations.CompactLoopBounds := by
  intro m l hl hl'
  have hnew := newLen_bounds hl'
  refine ⟨fun k => ?_, ?_, ?_, compactLoop_rem m hl', fun k => ?_, fun k n hk hn => ?_⟩
  · rw [iterate_compactIter_rem]
    simp only [compactStart, Config.skip]
    split <;> omega
  · split <;> omega
  · split <;> omega
  · obtain ⟨hrem, hrd, hwritten, hwr⟩ := compact_cursors m l k
    simp only [Compaction.finalRd, Compaction.finalWritten] at hrd hwritten
    omega
  · obtain ⟨hrem, -⟩ := compact_cursors m l k
    refine ⟨?_, fun i hi => ?_⟩
    · rw [hn, satSub_eq]
      split <;> omega
    · obtain ⟨hsrc, hdst⟩ := compact_indices (by omega) hn hi
      omega

end Sys2Proof.Machine

/-! ## Rules that the statements of the exceptions family need -/

namespace Sys2Proof

/-! ### Words by opcode: the rows that the CRC and frame families left -/

theorem decode_of_op_crcLd {cw : CommandWord} (h : op cw = 0x11) : decode cw = .ok (.crcLd (imm16 cw)) := by
  simp [decode, h]

theorem decode_of_op_fbWr {cw : CommandWord} (h : op cw = 0x21) : decode cw = .ok (.fbWr (hi8 cw) (lo8 cw)) := by
  simp [decode, h]

theorem decode_of_op_fcCompact {cw : CommandWord} (h : op cw = 0x23) :
    decode cw = if hi8 cw = 0 then .ok (.fcCompact (lo8 cw)) else .error .mustBeZeroBitSet := by
  simp [decode, h]

theorem decode_of_unknownOp {cw : CommandWord}
    (h : ∀ o ∈ [(0x11 : Byte), 0x12, 0x13, 0x14, 0x21, 0x22, 0x23], op cw ≠ o) : decode cw = .error .unknownOp := by
  simp only [List.forall_mem_cons] at h
  obtain ⟨h11, h12, h13, h14, h21, h22, h23, -⟩ := h
  rw [decode, if_neg h11, if_neg h12, if_neg h13, if_neg h14, if_neg h21, if_neg h22, if_neg h23]

/-- A word decodes to no command when it selects no row of the table (R43, R44). -/
theorem forall_decode_ne_iff (cw : CommandWord) :
    (∀ i, decode cw ≠ .ok i) ↔ ∀ row ∈ opcodeTable, cw &&& row.maskBits ≠ row.matchBits := by
  rw [← not_exists, ← wellFormedWord_iff, wellFormedWord, List.any_eq_true]
  simp only [Row.selects_iff, not_exists, not_and, ne_eq]

end Sys2Proof

namespace Sys2Proof.Machine

/-! ### The exception that a word raises -/

/-- The exception that a command raises: FC.COMPACT alone has its operand checked (R101, R117). -/
def argumentError : Instr → Option Exception
  | .crcLd _ => none
  | .crcStep _ => none
  | .crcRd => none
  | .crcFin => none
  | .fbWr _ _ => none
  | .fbRd _ => none
  | .fcCompact len => if len.toNat < Config.minLen then some (.invalidArgument len) else none

/-- The exception that a word raises, whatever the state (R100, R105); `execute_of_raised` and `execute_of_not_raised`
tie it to the execution of the word. -/
def raisedBy (cw : CommandWord) : Option Exception :=
  match decode cw with
  | .ok i => argumentError i
  | .error _ => some (.illegalCommand cw)

theorem raisedBy_of_decode {cw : CommandWord} {i : Instr} (h : decode cw = .ok i) :
    raisedBy cw = argumentError i := by
  simp [raisedBy, h]

theorem raisedBy_of_illegal {cw : CommandWord} {why : IllegalWord} (h : decode cw = .error why) :
    raisedBy cw = some (.illegalCommand cw) := by
  simp [raisedBy, h]

theorem argumentError_fcCompact_short {len : Byte} (h : len.toNat < 12) :
    argumentError (.fcCompact len) = some (.invalidArgument len) := if_pos h

theorem argumentError_eq_some_iff {i : Instr} {e : Exception} :
    argumentError i = some e ↔ ∃ len, i = .fcCompact len ∧ len.toNat < 12 ∧ e = .invalidArgument len := by
  cases i with
  | crcLd _ => simp [argumentError]
  | crcStep _ => simp [argumentError]
  | crcRd => simp [argumentError]
  | crcFin => simp [argumentError]
  | fbWr _ _ => simp [argumentError]
  | fbRd _ => simp [argumentError]
  | fcCompact len =>
    rw [argumentError, Option.ite_none_right_eq_some]
    simp [Config.minLen, eq_comm]

theorem raisedBy_eq_invalidArgument_iff {cw : CommandWord} {len : Byte} :
    raisedBy cw = some (.invalidArgument len) ↔ decode cw = .ok (.fcCompact len) ∧ len.toNat < 12 := by
  cases hd : decode cw with
  | ok i =>
    rw [raisedBy_of_decode hd, argumentError_eq_some_iff]
    constructor
    · rintro ⟨_, rfl, hlen, ⟨⟩⟩
      exact ⟨rfl, hlen⟩
    · rintro ⟨⟨⟩, hlen⟩
      exact ⟨len, rfl, hlen, rfl⟩
  | error why => simp [raisedBy_of_illegal hd]

theorem raisedBy_eq_illegalCommand_iff {cw w : CommandWord} :
    raisedBy cw = some (.illegalCommand w) ↔ w = cw ∧ ∀ i, decode cw ≠ .ok i := by
  cases hd : decode cw with
  | ok i => simp [raisedBy_of_decode hd, argumentError_eq_some_iff]
  | error why => simp [raisedBy_of_illegal hd, eq_comm]

/-- A word that raises an exception changes nothing but the response (R103). -/
theorem execute_of_raised {cw : CommandWord} {e : Exception} (h : raisedBy cw = some e) (s : State) :
    execute cw s = .next (s.raise e) := by
  cases hd : decode cw with
  | ok i =>
    obtain ⟨len, rfl, hlen, rfl⟩ := argumentError_eq_some_iff.1 ((raisedBy_of_decode hd).symm.trans h)
    exact (execute_of_decode hd s).trans (exec_fcCompact_short hlen s)
  | error why =>
    cases (raisedBy_of_illegal hd).symm.trans h
    exact execute_of_illegal hd s

/-- A word that raises no exception answers with status 0 (R48). -/
theorem execute_of_not_raised {cw : CommandWord} (h : raisedBy cw = none) (s : State) :
    ∃ t v, execute cw s = .next t ∧ t.rsp = some (okResponse v) := by
  obtain ⟨t, ht, -⟩ := execute_crc cw s
  cases hd : decode cw with
  | ok i =>
    refine ⟨t, okValue s i, ht, execute_rsp_ok hd ?_ ht⟩
    rintro len rfl
    by_contra hlen
    rw [raisedBy_of_decode hd, argumentError_fcCompact_short (Nat.not_le.1 hlen)] at h
    cases h
  | error why => cases (raisedBy_of_illegal hd).symm.trans h

/-- Every word answers, with the status of the exception that it raises, or 0 (R100). -/
theorem execute_status (cw : CommandWord) (s : State) : ∃ t r, execute cw s = .next t ∧ t.rsp = some r ∧
    (r.status = 0 ↔ raisedBy cw = none) ∧
    (r.status = 1 ↔ ∃ len, raisedBy cw = some (.invalidArgument len)) ∧
    (r.status = 2 ↔ raisedBy cw = some (.illegalCommand cw)) ∧
    r.status ≠ 3 := by
  cases h : raisedBy cw with
  | none =>
    obtain ⟨t, v, ht, hrsp⟩ := execute_of_not_raised h s
    exact ⟨t, _, ht, hrsp, by simp [okResponse, statusOk]⟩
  | some e =>
    refine ⟨_, _, execute_of_raised h s, rfl, ?_⟩
    cases e with
    | invalidArgument len => simp [Exception.response, statusInvalidArgument]
    | illegalCommand w =>
      obtain ⟨rfl, -⟩ := raisedBy_eq_illegalCommand_iff.1 h
      simp [Exception.response, statusIllegalCommand]

/-! ### O32: the two exceptions -/

/-- Settles O32: by the exception that the word raises; what raises it is fixed by what the word decodes to. -/
theorem errorsReportAndWriteNothing : Obligations.ErrorsReportAndWriteNothing := by
  intro cw s
  obtain ⟨t, r, ht, hrsp, h0, h1, h2, h3⟩ := execute_status cw s
  have hraise {e : Exception} (he : raisedBy cw = some e) : t = s.raise e ∧ r = e.response := by
    cases ht.symm.trans (execute_of_raised he s)
    exact ⟨rfl, (Option.some.inj hrsp).symm⟩
  refine ⟨t, r, ht, hrsp, ?_, ?_, h3, fun len hd hlen => ?_, fun hr => ?_, fun hr => ?_⟩
  · simp only [h1, raisedBy_eq_invalidArgument_iff]
  · rw [h2, raisedBy_eq_illegalCommand_iff, forall_decode_ne_iff, eq_self, true_and]
  · rw [(hraise (raisedBy_eq_invalidArgument_iff.2 ⟨hd, hlen⟩)).2]
    rfl
  · rw [(hraise (h2.1 hr)).2]
    rfl
  · obtain ⟨e, he⟩ := Option.ne_none_iff_exists'.1 (mt h0.2 hr)
    obtain ⟨rfl, rfl⟩ := hraise he
    rfl

/-! ### O36: the exceptions of each opcode -/

/-- An opcode with must-be-zero bits and no checked operand: the word is a command that raises nothing when `p` says
that the bits are zero, and is illegal otherwise (R117). -/
theorem raisedBy_of_mustBeZero {cw : CommandWord} {p : Prop} [Decidable p] {i : Instr}
    (hd : decode cw = if p then .ok i else .error .mustBeZeroBitSet) (hi : argumentError i = none) :
    (¬ ∃ len, raisedBy cw = some (.invalidArgument len)) ∧ (raisedBy cw = some (.illegalCommand cw) ↔ ¬ p) := by
  by_cases hp : p
  · rw [if_pos hp] at hd
    simp [raisedBy_of_decode hd, hi, hp]
  · rw [if_neg hp] at hd
    simp [raisedBy_of_illegal hd, hp]

theorem raisedBy_of_op_fcCompact {cw : CommandWord} (h : op cw = 0x23) :
    ((∃ len, raisedBy cw = some (.invalidArgument len)) ↔ hi8 cw = 0 ∧ (lo8 cw).toNat < 12) ∧
    (raisedBy cw = some (.illegalCommand cw) ↔ hi8 cw ≠ 0) := by
  by_cases hz : hi8 cw = 0
  · have hd := (decode_of_op_fcCompact h).trans (if_pos hz)
    simp [raisedBy_eq_invalidArgument_iff, raisedBy_eq_illegalCommand_iff, hd, hz]
  · have hd := (decode_of_op_fcCompact h).trans (if_neg hz)
    refine ⟨iff_of_false ?_ fun hshort => hz hshort.1, iff_of_true (raisedBy_of_illegal hd) hz⟩
    simp [raisedBy_of_illegal hd]

/-- Settles O36: the status says what the word raises, and the row of the opcode says what that can be. -/
theorem whichCommandRaisesWhat : Obligations.WhichCommandRaisesWhat := by
  intro cw s
  obtain ⟨t, r, ht, hrsp, h0, h1, h2, -⟩ := execute_status cw s
  refine ⟨t, r, ht, hrsp, ?_⟩
  rw [ne_eq, h0, h1, h2]
  exact ⟨fun hop => raisedBy_of_decode (decode_of_op_crcLd hop),
    fun hop => raisedBy_of_mustBeZero (decode_of_op_crcStep hop) rfl,
    fun hop => raisedBy_of_mustBeZero (decode_of_op_crcRd hop) rfl,
    fun hop => raisedBy_of_mustBeZero (decode_of_op_crcFin hop) rfl,
    fun hop => raisedBy_of_decode (decode_of_op_fbWr hop),
    fun hop => raisedBy_of_mustBeZero (decode_of_op_fbRd hop) rfl,
    raisedBy_of_op_fcCompact,
    fun hop => raisedBy_of_illegal (decode_of_unknownOp hop)⟩

/-! ### O37: errors are not latched -/

/-- No command reads the response of an earlier one, or keeps it. -/
theorem exec_setRsp (i : Instr) (s : State) (r : Option Response) : exec i { s with rsp := r } = exec i s := by
  cases hi : i.isCrcUnit with
  | true =>
    obtain ⟨v, r', h⟩ := exec_crcUnit hi s
    exact (h s.fb s.draws r).trans (h s.fb s.draws s.rsp).symm
  | false =>
    obtain ⟨m, d, r', h⟩ := exec_frameUnit hi s
    exact (h s.crc r).trans (h s.crc s.rsp).symm

theorem execute_setRsp (cw : CommandWord) (s : State) (r : Option Response) :
    execute cw { s with rsp := r } = execute cw s := by
  cases hd : decode cw with
  | ok i => rw [execute_of_decode hd, execute_of_decode hd, exec_setRsp]
  | error why =>
    rw [execute_of_illegal hd, execute_of_illegal hd]
    rfl

/-- Settles O37: the erroneous word changes the response alone, which no word reads. -/
theorem errorsAreNotLatched : Obligations.ErrorsAreNotLatched := by
  intro bad cw s hbad
  have hraised : ∃ e, raisedBy bad = some e := by
    cases hd : decode bad with
    | ok i =>
      obtain ⟨len, rfl, hlen⟩ := hbad i hd
      exact ⟨_, raisedBy_eq_invalidArgument_iff.2 ⟨hd, hlen⟩⟩
    | error why => exact ⟨_, raisedBy_of_illegal hd⟩
  obtain ⟨e, he⟩ := hraised
  exact ⟨s.raise e, execute_of_raised he s, execute_setRsp cw s _⟩

/-! ### O33, O34, O35: each exception on its words -/

/-- A length below 12 raises InvalidArgument, which reports the length (R101). -/
theorem execute_of_short_length {cw : CommandWord} {len : Byte} (hd : decode cw = .ok (.fcCompact len))
    (hlen : len.toNat < 12) (s : State) : execute cw s = .next { s with rsp := some ⟨1, len.setWidth 16⟩ } :=
  execute_of_raised (raisedBy_eq_invalidArgument_iff.2 ⟨hd, hlen⟩) s

/-- Settles O33: the word is the encoding of FC.COMPACT, and the new length of 12 bytes is 10. -/
theorem shortLengthIsAnInvalidArgument : Obligations.ShortLengthIsAnInvalidArgument := by
  refine ⟨fun len s hlen => execute_of_short_length (decode_encode (.fcCompact len)) hlen s, fun s => ?_⟩
  have hd : decode 0x23000C = .ok (.fcCompact 12) := by decide
  rw [execute_of_decode hd]
  exact exec_fcCompact_rsp (by decide) s

/-- Settles O34: a word that decodes to no command raises IllegalCommand, which reports the opcode byte. -/
theorem illegalWordIsNotExecuted : Obligations.IllegalWordIsNotExecuted :=
  fun _ s h => execute_of_raised (raisedBy_eq_illegalCommand_iff.2 ⟨rfl, h⟩) s

/-- A word of FC.COMPACT's opcode with a must-be-zero bit set raises IllegalCommand, whatever its length (R105). -/
theorem execute_fcCompact_malformed {cw : CommandWord} (hop : op cw = 0x23) (hz : hi8 cw ≠ 0) (s : State) :
    execute cw s = .next { s with rsp := some ⟨2, 0x0023⟩ } :=
  execute_of_mustBeZeroBitSet ((decode_of_op_fcCompact hop).trans (if_neg hz)) hop s

/-- A well-formed word of FC.COMPACT with a length below 12 raises InvalidArgument (R105). -/
theorem execute_fcCompact_short {cw : CommandWord} (hop : op cw = 0x23) (hz : hi8 cw = 0)
    (hlen : (lo8 cw).toNat < 12) (s : State) :
    execute cw s = .next { s with rsp := some ⟨1, (lo8 cw).setWidth 16⟩ } :=
  execute_of_short_length ((decode_of_op_fcCompact hop).trans (if_pos hz)) hlen s

/-- Settles O35: a word of FC.COMPACT's opcode has its length checked when its must-be-zero bits are zero. -/
theorem decodingComesBeforeTheLengthCheck : Obligations.DecodingComesBeforeTheLengthCheck :=
  ⟨illegalWordIsNotExecuted, fun _ s hop hz => execute_fcCompact_malformed hop hz s,
    fun _ s hop hz hlen => execute_fcCompact_short hop hz hlen s,
    fun s => ⟨execute_fcCompact_malformed (by decide) (by decide) s,
      execute_fcCompact_short (cw := 0x230005) (by decide) (by decide) (by decide) s⟩⟩

end Sys2Proof.Machine

/-! ## The round trip, the CRC's linearity, the compacted buffer, and what every step keeps -/

namespace Sys2Proof

/-- Settles O2: the two halves of the round trip. -/
theorem decodeAndEncodeAgree : Obligations.DecodeAndEncodeAgree :=
  fun _ _ => decode_eq_ok_iff

/-- Settles O4: each fixed word is decoded. -/
theorem exampleWordsDecode : Obligations.ExampleWordsDecode := by
  unfold Obligations.ExampleWordsDecode
  decide

end Sys2Proof

namespace Sys2Proof.Machine

/-! ### O7: linearity of the CRC -/

theorem shl1_xor (r r' : Half) : shl1 (r ^^^ r') = shl1 r ^^^ shl1 r' := BitVec.shiftLeft_xor_distrib r r' 1

/-- The feedback bit and the shift are both linear (40_crc.md section 7, property 4). -/
theorem crcBit_xor (poly r r' : Half) (d d' : Bool) :
    crcBit poly (r ^^^ r') (d ^^ d') = crcBit poly r d ^^^ crcBit poly r' d' := by
  apply BitVec.eq_of_getLsbD_eq
  intro i _
  have hfeed : ((r ^^^ r').getLsbD 15 ^^ (d ^^ d')) = ((r.getLsbD 15 ^^ d) ^^ (r'.getLsbD 15 ^^ d')) := by
    rw [BitVec.getLsbD_xor, Bool.xor_assoc, Bool.xor_assoc, Bool.xor_left_comm (r'.getLsbD 15)]
  rw [BitVec.getLsbD_xor, getLsbD_crcBit, getLsbD_crcBit, getLsbD_crcBit, hfeed, shl1_xor, BitVec.getLsbD_xor,
    Bool.and_xor_distrib_right]
  simp only [Bool.xor_assoc, Bool.xor_left_comm]

/-- Bit steps in a row are linear, whichever bits of the bytes they take. -/
theorem foldl_crcBit_xor (poly r r' : Half) (b b' : Byte) (bits : List Nat) :
    bits.foldl (fun acc i => crcBit poly acc ((b ^^^ b').getLsbD i)) (r ^^^ r')
      = bits.foldl (fun acc i => crcBit poly acc (b.getLsbD i)) r
        ^^^ bits.foldl (fun acc i => crcBit poly acc (b'.getLsbD i)) r' := by
  induction bits generalizing r r' with
  | nil => rfl
  | cons i rest ih => rw [List.foldl_cons, BitVec.getLsbD_xor, crcBit_xor, ih, List.foldl_cons, List.foldl_cons]

theorem crcStep_xor (poly r r' : Half) (b b' : Byte) :
    crcStep poly (r ^^^ r') (b ^^^ b') = crcStep poly r b ^^^ crcStep poly r' b' :=
  foldl_crcBit_xor poly r r' b b' _

/-- Settles O7: the byte step is bit steps in a row. -/
theorem crcStepIsLinear : Obligations.CrcStepIsLinear :=
  fun poly r r' => ⟨crcBit_xor poly r r', crcStep_xor poly r r'⟩

/-! ### O8: the table form -/

/-- The byte that equals the register's high byte shifts the register: no bit step feeds back. -/
theorem crcStep_highByte_eq_shiftLeft (poly r : Half) : crcStep poly r (highByte r) = r <<< 8 :=
  foldl_crcBit_highByte poly r le_rfl

/-- By linearity the byte splits into the register's high byte, which shifts, and the difference, which is stepped from
zero (40_crc.md section 7, property 5). -/
theorem crcStep_eq_shiftLeft_xor (poly r : Half) (b : Byte) :
    crcStep poly r b = (r <<< 8) ^^^ crcStep poly 0#16 (highByte r ^^^ b) :=
  calc crcStep poly r b
    _ = crcStep poly (r ^^^ 0#16) (highByte r ^^^ (highByte r ^^^ b)) := by
      rw [BitVec.xor_zero, ← BitVec.xor_assoc, BitVec.xor_self, BitVec.zero_xor]
    _ = (r <<< 8) ^^^ crcStep poly 0#16 (highByte r ^^^ b) := by
      rw [crcStep_xor, crcStep_highByte_eq_shiftLeft]

/-- Settles O8: by linearity. -/
theorem crcStepHasATableForm : Obligations.CrcStepHasATableForm := crcStep_eq_shiftLeft_xor

/-! ### O9: the residue -/

theorem highByte_not16 (x : Half) : highByte (not16 x) = highByte x ^^^ 0xFF := BitVec.extractLsb'_xor

theorem lowByte_not16 (x : Half) : lowByte (not16 x) = lowByte x ^^^ 0xFF := BitVec.extractLsb'_xor

theorem highByte_shiftLeft_eight (x : Half) : highByte (x <<< 8) = lowByte x := by
  apply BitVec.eq_of_getLsbD_eq
  intro i hi
  have h16 : 8 + i < 16 := by omega
  simp only [highByte, lowByte, BitVec.getLsbD_extractLsb', BitVec.getLsbD_shiftLeft, hi, h16]
  simp

theorem shiftLeft_eight_eight (x : Half) : x <<< 8 <<< 8 = 0#16 := by
  rw [← BitVec.shiftLeft_add]
  exact BitVec.shiftLeft_eq_zero le_rfl

/-- Stepping the register's own two bytes, high byte first, clears it. -/
theorem crcStep_own_bytes (poly x : Half) : crcStep poly (crcStep poly x (highByte x)) (lowByte x) = 0#16 := by
  rw [crcStep_highByte_eq_shiftLeft, ← highByte_shiftLeft_eight, crcStep_highByte_eq_shiftLeft, shiftLeft_eight_eight]

/-- The complement of the two bytes adds, by linearity, what the bytes 0xFF, 0xFF give from zero. -/
theorem crcStep_complemented_bytes (poly x : Half) :
    crcStep poly (crcStep poly x (highByte (not16 x))) (lowByte (not16 x))
      = crcStep poly (crcStep poly 0#16 0xFF) 0xFF := by
  have hhigh : crcStep poly x (highByte x ^^^ 0xFF) = crcStep poly x (highByte x) ^^^ crcStep poly 0#16 0xFF := by
    rw [← crcStep_xor, BitVec.xor_zero]
  rw [highByte_not16, lowByte_not16, hhigh, crcStep_xor, crcStep_own_bytes, BitVec.zero_xor]

/-- Settles O9: the register before the last complement is stepped with its own complemented bytes. -/
theorem checksumResidueIsConstant : Obligations.ChecksumResidueIsConstant := by
  intro poly data
  rw [checksum, not16_not16]
  exact crcStep_complemented_bytes poly _

end Sys2Proof.Machine

namespace Sys2Proof.Machine

/-! ### The buffer inside the loop of FC.COMPACT (R92) -/

/-- The payload at the destination of a full group is the group's kept bytes in order. -/
theorem sourceIndex_group (k : Nat) {i : Nat} (hi : i < 16) : sourceIndex (10 + 16 * k + i) = 12 + 18 * k + i := by
  simp only [sourceIndex, Config.skip, Config.group, Config.hdr, Config.keep]
  omega

/-- `fb` is the buffer `m` with its payload packed below index `w` and everything else as it was. -/
structure IsPacked (m fb : Memory) (w : Nat) : Prop where
  wf : fb.wf = true
  read_inside : ∀ a, 10 ≤ a → a < w → fb.read a = m.read (sourceIndex a)
  read_outside : ∀ a, a < 10 ∨ w ≤ a → fb.read a = m.read a

theorem isPacked_start {m : Memory} (h : m.wf = true) : IsPacked m m 10 :=
  ⟨h, fun _ _ _ => by omega, fun _ _ => rfl⟩

/-- The copy of iteration `k` reads bytes that no earlier iteration has written, and packs them. -/
theorem isPacked_copy {m fb : Memory} {k n : Nat} (h : IsPacked m fb (10 + 16 * k)) (hn : n ≤ 16)
    (hfit : 10 + 16 * k + n ≤ Config.fbSize) :
    IsPacked m (copy fb (12 + 18 * k) (10 + 16 * k) n) (10 + 16 * k + n) := by
  refine ⟨copy_wf h.wf hfit, fun a ha haw => ?_, fun a ha => ?_⟩
  · by_cases hnew : 10 + 16 * k ≤ a
    · obtain ⟨i, rfl⟩ := Nat.exists_eq_add_of_le hnew
      rw [read_copy_inside h.wf hfit (by omega), h.read_outside _ (by omega), sourceIndex_group k (by omega)]
    · rw [read_copy_outside h.wf hfit (by omega), h.read_inside a ha (by omega)]
  · rw [read_copy_outside h.wf hfit (by omega), h.read_outside a (by omega)]

/-- The write cursor never passes the new length (R94). -/
theorem iterate_compactIter_wr_le (m : Memory) (l k : Nat) :
    (compactIter^[k] (compactStart m l)).wr ≤ newLen l := by
  obtain ⟨-, -, hwritten, hwr⟩ := compact_cursors m l k
  rw [Compaction.finalWritten] at hwritten
  omega

/-- An iteration that runs copies at most a group's kept bytes to the write cursor, and moves it past them. -/
theorem compactIter_running {c : Compaction} (h : c.rem ≠ 0) : ∃ n, n ≤ 16 ∧
    (compactIter c).fb = copy c.fb c.rd c.wr n ∧ (compactIter c).wr = c.wr + n := by
  rcases compactIter_cases c with ⟨h0, -⟩ | ⟨-, hc⟩ | ⟨hlt, hc⟩
  · exact absurd h0 h
  · exact ⟨16, le_rfl, by rw [hc], by rw [hc]⟩
  · exact ⟨c.rem - 2, by omega, by rw [hc], by rw [hc]⟩

/-- At the start of every iteration the payload is packed up to the write cursor. -/
theorem iterate_compactIter_isPacked {m : Memory} (hm : m.wf = true) {l : Nat} (hl : l ≤ 255) (k : Nat) :
    IsPacked m (compactIter^[k] (compactStart m l)).fb (compactIter^[k] (compactStart m l)).wr := by
  induction k with
  | zero => exact isPacked_start hm
  | succ k ih =>
    have hfit := (iterate_compactIter_wr_le m l (k + 1)).trans (newLen_bounds hl).2
    have hrem := (compact_cursors m l k).1
    rw [Function.iterate_succ_apply'] at hfit ⊢
    by_cases hdone : (compactIter^[k] (compactStart m l)).rem = 0
    · rwa [compactIter_done hdone]
    · obtain ⟨hrd, hwr⟩ := compact_cursors_running m (l := l) (k := k) (by omega)
      obtain ⟨n, hn, hfb', hwr'⟩ := compactIter_running hdone
      rw [hwr', hwr] at hfit
      rw [hwr] at ih
      rw [hfb', hwr', hrd, hwr]
      exact isPacked_copy ih hn (hfit.trans (by decide))

/-- The loop packs the payload up to the new length. -/
theorem compactLoop_isPacked {m : Memory} (hm : m.wf = true) {l : Nat} (hl : l ≤ 255) :
    IsPacked m (compactLoop m l).fb (newLen l) := by
  have hwr : (compactLoop m l).wr = newLen l :=
    (iterate_compactIter_wr_eq_written rfl Config.maxIterations).trans (compactLoop_written m hl)
  exact hwr ▸ iterate_compactIter_isPacked hm hl Config.maxIterations

/-! ### The buffer after FC.COMPACT -/

theorem newLen_add_two_le {l : Nat} (hl : 12 ≤ l) : newLen l + 2 ≤ l := by
  have hsub := sub_newLen hl
  omega

/-- The buffer that FC.COMPACT with the legal length `l` leaves; `exec_fcCompact` ties it to the command. -/
def compactedFb (s : State) (l : Nat) : Memory :=
  (compactLoop s.fb l).fb.writeBytes (newLen l) (s.freeBytes (l - newLen l))

/-- FC.COMPACT with a legal length, in the closed forms of R91 and R92. -/
theorem exec_fcCompact {len : Byte} (hlen : 12 ≤ len.toNat) (s : State) :
    exec (.fcCompact len) s = .next { s with
      fb := compactedFb s len.toNat
      rsp := some (okResponse (BitVec.ofNat 16 (newLen len.toNat)))
      draws := s.draws + (len.toNat - newLen len.toNat) } := by
  rw [exec_fcCompact_legal (Nat.not_lt.2 hlen), compactLoop_written s.fb (Nat.le_of_lt_succ len.isLt), compactedFb]

section CompactedFb

variable {s : State} {l : Nat} (hfb : s.fb.wf = true) (hl : 12 ≤ l) (hl' : l ≤ 255)

include hl hl' in
/-- The tail ends with the frame, inside the buffer. -/
theorem compactedFb_tail_fits : newLen l + (s.freeBytes (l - newLen l)).length ≤ Config.fbSize := by
  have hlt := newLen_add_two_le hl
  rw [State.freeBytes_length, Config.fbSize]
  omega

include hfb hl hl'

theorem compactedFb_wf : (compactedFb s l).wf = true :=
  Memory.wf_writeBytes (compactLoop_isPacked hfb hl').wf (compactedFb_tail_fits hl hl')

/-- The payload holds the kept bytes of the old frame (R92). -/
theorem read_compactedFb_payload {j : Nat} (hj : 10 ≤ j) (hj' : j < newLen l) :
    (compactedFb s l).read j = s.fb.read (sourceIndex j) := by
  have hpacked := compactLoop_isPacked hfb hl'
  rw [compactedFb, Memory.read_writeBytes hpacked.wf (compactedFb_tail_fits hl hl'), dif_neg (by omega),
    hpacked.read_inside j hj hj']

/-- The tail holds free values (R90). -/
theorem read_compactedFb_tail {j : Nat} (hj : newLen l ≤ j) (hj' : j < l) :
    (compactedFb s l).read j = Config.freeByte (s.draws + (j - newLen l)) := by
  rw [compactedFb, Memory.read_writeBytes (compactLoop_isPacked hfb hl').wf (compactedFb_tail_fits hl hl'),
    dif_pos (by rw [State.freeBytes_length]; omega), State.freeBytes_getElem]

/-- The header and everything from the frame's end on stand (R92). -/
theorem read_compactedFb_outside {j : Nat} (hj : j < 10 ∨ l ≤ j) : (compactedFb s l).read j = s.fb.read j := by
  have hpacked := compactLoop_isPacked hfb hl'
  have hlt := newLen_add_two_le hl
  have hten := (newLen_bounds hl').1
  rw [compactedFb, Memory.read_writeBytes hpacked.wf (compactedFb_tail_fits hl hl'),
    dif_neg (by rw [State.freeBytes_length]; omega), hpacked.read_outside j (by omega)]

end CompactedFb

/-! ### O18, O19, O23, O24: FC.COMPACT -/

/-- Settles O18: the two kinds of running iteration, and the loop's end after fourteen of them. -/
theorem compactRunsTheLoop : Obligations.CompactRunsTheLoop := by
  refine ⟨fun len s hlen => ⟨compactLoop_rem s.fb (Nat.le_of_lt_succ len.isLt),
    exec_fcCompact_legal (Nat.not_lt.2 hlen) s⟩, fun _ _ => rfl, fun _ => compactIter_done,
    fun _ => compactIter_full, fun c h1 h17 => ?_⟩
  rw [satSub_eq]
  exact compactIter_partial (by omega) (by omega)

/-- A source cell lies in the old frame, two bytes above its destination and two more for each group passed (R92). -/
theorem sourceIndex_bounds {l j : Nat} (hj : 10 ≤ j) (hj' : j < newLen l) :
    sourceIndex j = j + 2 + 2 * ((j - 10) / 16) ∧ 12 ≤ sourceIndex j ∧ sourceIndex j < l - 2 := by
  rw [newLen_eq] at hj'
  simp only [sourceIndex, Config.skip, Config.group, Config.hdr, Config.keep]
  split at hj' <;> omega

/-- Settles O19: region by region of the compacted buffer. -/
theorem compactStripsAndRepacks : Obligations.CompactStripsAndRepacks := by
  refine ⟨fun len s hinv hlen => ?_, fun len => decode_encode (.fcCompact len),
    fun _ s hlen => exec_fcCompact_short hlen s, fun _ s hop hz => execute_fcCompact_malformed hop hz s⟩
  have hlen' := Nat.le_of_lt_succ len.isLt
  have hfb := hinv.fb_wf
  refine ⟨_, exec_fcCompact hlen s, rfl, fun j hj => read_compactedFb_outside hfb hlen hlen' (.inl hj),
    fun j hj hj' => ?_, fun j hj hj' => read_compactedFb_tail hfb hlen hlen' hj hj', rfl,
    fun j hj => read_compactedFb_outside hfb hlen hlen' (.inr hj), rfl, rfl⟩
  have hread := read_compactedFb_payload hfb hlen hlen' hj hj'
  obtain ⟨hsrc, hbounds⟩ := sourceIndex_bounds hj hj'
  rw [hsrc] at hbounds
  exact ⟨hread, hsrc ▸ hread, hbounds⟩

theorem toNat_ofNat_newLen {l : Nat} (hl : l ≤ 255) : (BitVec.ofNat 16 (newLen l)).toNat = newLen l := by
  have hbound := newLen_bounds hl
  exact Nat.mod_eq_of_lt (by omega)

/-- The new length fits the operand of the next FC.COMPACT. -/
theorem toNat_lowByte_newLen {l : Nat} (hl : l ≤ 255) : (lowByte (BitVec.ofNat 16 (newLen l))).toNat = newLen l := by
  have hbound := newLen_bounds hl
  rw [lowByte, BitVec.extractLsb'_toNat, toNat_ofNat_newLen hl, Nat.shiftRight_zero]
  exact Nat.mod_eq_of_lt (by omega)

/-- Settles O23: the new length is at least two below the length, on the second run too. -/
theorem compactIsAOneWayTransform : Obligations.CompactIsAOneWayTransform := by
  refine ⟨fun len s hlen => ?_, by decide, by decide⟩
  have hlen' := Nat.le_of_lt_succ len.isLt
  have hshort := newLen_add_two_le hlen
  obtain ⟨t, ht, hrsp⟩ := exec_fcCompact_rsp hlen s
  have hvalue : (okResponse (BitVec.ofNat 16 (newLen len.toNat))).value.toNat = newLen len.toNat :=
    toNat_ofNat_newLen hlen'
  refine ⟨t, _, ht, hrsp, rfl, by omega, fun hagain => ?_⟩
  rw [hvalue] at hagain ⊢
  have hbyte := toNat_lowByte_newLen hlen'
  obtain ⟨t', ht', hrsp'⟩ := exec_fcCompact_rsp (hagain.trans_eq hbyte.symm) t
  refine ⟨t', _, ht', hrsp', rfl, ?_⟩
  have hshort' := newLen_add_two_le hagain
  have hvalue' := toNat_ofNat_newLen (l := newLen len.toNat) (by omega)
  rw [hbyte, okResponse, hvalue']
  omega

/-- Settles O24: below the new length the compacted buffer holds the header and the source cells. -/
theorem compactReadsOnlyItsSourceCells : Obligations.CompactReadsOnlyItsSourceCells := by
  intro len s s' hinv hinv' hlen hheader hsource
  have hlen' := Nat.le_of_lt_succ len.isLt
  refine ⟨_, _, exec_fcCompact hlen s, exec_fcCompact hlen s', rfl, fun j hj => ?_⟩
  by_cases h10 : j < 10
  · exact (read_compactedFb_outside hinv.fb_wf hlen hlen' (.inl h10)).trans
      ((hheader j h10).trans (read_compactedFb_outside hinv'.fb_wf hlen hlen' (.inl h10)).symm)
  · have h10' := Nat.not_lt.1 h10
    exact (read_compactedFb_payload hinv.fb_wf hlen hlen' h10' hj).trans
      ((hsource j h10' hj).trans (read_compactedFb_payload hinv'.fb_wf hlen hlen' h10' hj).symm)

/-! ### O27: the buffer by command -/

/-- The buffer that a command leaves in `s` (R25, R29). -/
def newFb (s : State) : Instr → Memory
  | .crcLd _ => s.fb
  | .crcStep _ => s.fb
  | .crcRd => s.fb
  | .crcFin => s.fb
  | .fbWr a d => s.fb.write (effectiveAddr a) d
  | .fbRd _ => s.fb
  | .fcCompact len => if len.toNat < Config.minLen then s.fb else compactedFb s len.toNat

/-- Every command answers, leaves `newFb` in the buffer and takes no input; FC.COMPACT alone draws. -/
theorem exec_fb (i : Instr) (s : State) : ∃ t, exec i s = .next t ∧ t.inputs = s.inputs ∧ t.fb = newFb s i ∧
    ((∀ len, i ≠ .fcCompact len) → t.draws = s.draws) := by
  cases i with
  | crcLd v => exact ⟨_, rfl, rfl, rfl, fun _ => rfl⟩
  | crcStep b => exact ⟨_, rfl, rfl, rfl, fun _ => rfl⟩
  | crcRd => exact ⟨_, rfl, rfl, rfl, fun _ => rfl⟩
  | crcFin => exact ⟨_, rfl, rfl, rfl, fun _ => rfl⟩
  | fbWr a d => exact ⟨_, rfl, rfl, rfl, fun _ => rfl⟩
  | fbRd a => exact ⟨_, rfl, rfl, rfl, fun _ => rfl⟩
  | fcCompact len =>
    by_cases hlen : len.toNat < Config.minLen
    · exact ⟨_, exec_fcCompact_short hlen s, rfl, (if_pos hlen).symm, fun h => absurd rfl (h len)⟩
    · exact ⟨_, exec_fcCompact (Nat.not_lt.1 hlen) s, rfl, (if_neg hlen).symm, fun h => absurd rfl (h len)⟩

theorem newFb_of_ne {i : Instr} (hwr : ∀ a d, i ≠ .fbWr a d) (hcompact : ∀ l, i ≠ .fcCompact l) (s : State) :
    newFb s i = s.fb := by
  cases i with
  | crcLd _ => rfl
  | crcStep _ => rfl
  | crcRd => rfl
  | crcFin => rfl
  | fbWr a d => exact absurd rfl (hwr a d)
  | fbRd _ => rfl
  | fcCompact l => exact absurd rfl (hcompact l)

theorem read_newFb_fcCompact {s : State} (hfb : s.fb.wf = true) {len : Byte} {j : Nat}
    (hj : j < 10 ∨ len.toNat ≤ j) : (newFb s (.fcCompact len)).read j = s.fb.read j := by
  rw [newFb]
  split
  · rfl
  · next hlen => exact read_compactedFb_outside hfb (Nat.not_lt.1 hlen) (Nat.le_of_lt_succ len.isLt) hj

/-- Every command keeps the canonical form of the buffer, the loop of FC.COMPACT included (R94). -/
theorem newFb_wf {s : State} (hfb : s.fb.wf = true) (i : Instr) : (newFb s i).wf = true := by
  cases i with
  | crcLd _ => exact hfb
  | crcStep _ => exact hfb
  | crcRd => exact hfb
  | crcFin => exact hfb
  | fbWr a d => exact Memory.wf_write hfb (effectiveAddr_lt a)
  | fbRd _ => exact hfb
  | fcCompact len =>
    rw [newFb]
    split
    · exact hfb
    · next hlen => exact compactedFb_wf hfb (Nat.not_lt.1 hlen) (Nat.le_of_lt_succ len.isLt)

/-- Settles O27: a word leaves the buffer of the command it decodes to, or raises. -/
theorem bufferAccessByCommand : Obligations.BufferAccessByCommand := by
  intro cw s hinv
  cases hd : decode cw with
  | ok i =>
    obtain ⟨t, ht, hin, hfb, hdraws⟩ := exec_fb i s
    refine ⟨t, (execute_of_decode hd s).trans ht, hin, fun hwr hcompact => ?_, fun a d hi j hj => ?_,
      fun l hi j hj => ?_⟩
    · have hne : ∀ l, i ≠ .fcCompact l := fun l e => hcompact l (congrArg _ e)
      exact ⟨hfb.trans (newFb_of_ne (fun a d e => hwr a d (congrArg _ e)) hne s), hdraws hne⟩
    · cases hi
      exact hfb ▸ Memory.read_write_of_ne hinv.fb_wf hj
    · cases hi
      exact hfb ▸ read_newFb_fcCompact hinv.fb_wf hj
  | error why => exact ⟨_, execute_of_illegal hd s, rfl, fun _ _ => ⟨rfl, rfl⟩, nofun, nofun⟩

/-! ### O39, O44: the answer of a step and the invariant -/

theorem okResponse_legal (v : Half) : (okResponse v).legal = true := by
  simp [Response.legal, okResponse]

theorem zext16_toNat (v : Byte) : (zext16 v).toNat = v.toNat := BitVec.toNat_setWidth_of_le (by decide)

/-- The response to the exception that a word raises is one the block may give (R100). -/
theorem response_legal_of_raised {cw : CommandWord} {e : Exception} (h : raisedBy cw = some e) :
    e.response.legal = true := by
  cases e with
  | invalidArgument len =>
    have hlen : (zext16 len).toNat < Config.minLen :=
      (zext16_toNat len).trans_lt (raisedBy_eq_invalidArgument_iff.1 h).2
    simp [Response.legal, Exception.response, hlen]
  | illegalCommand w =>
    have hop : (zext16 (op w)).toNat < 256 := (zext16_toNat (op w)).trans_lt (op w).isLt
    simp [Response.legal, Exception.response, hop]

/-- Every word gets one response, one that the block may give, and takes no input. -/
theorem execute_rsp_legal (cw : CommandWord) (s : State) :
    ∃ t r, execute cw s = .next t ∧ t.rsp = some r ∧ r.legal = true := by
  cases h : raisedBy cw with
  | none =>
    obtain ⟨t, v, ht, hrsp⟩ := execute_of_not_raised h s
    exact ⟨t, _, ht, hrsp, okResponse_legal v⟩
  | some e => exact ⟨_, _, execute_of_raised h s, rfl, response_legal_of_raised h⟩

/-- Status 3 is never given (R100). -/
theorem status_ne_three_of_legal {r : Response} (h : r.legal = true) : r.status ≠ 3 := by
  intro h3
  simp [Response.legal, h3, statusOk, statusInvalidArgument, statusIllegalCommand] at h

/-- A word leaves the host's later inputs as they are and keeps the canonical form of the buffer. -/
theorem execute_inputs_fb_wf {cw : CommandWord} {s t : State} (h : execute cw s = .next t) :
    t.inputs = s.inputs ∧ (s.fb.wf = true → t.fb.wf = true) := by
  rcases execute_cases h with ⟨i, -, hi⟩ | ⟨why, -, ht⟩
  · obtain ⟨t', ht', hin, hfb, -⟩ := exec_fb i s
    cases hi.symm.trans ht'
    exact ⟨hin, fun hwf => hfb ▸ newFb_wf hwf i⟩
  · cases ht
    exact ⟨rfl, id⟩

/-- Settles O39: by what the host offers. -/
theorem everyStepAnswers : Obligations.EveryStepAnswers := by
  intro s
  cases hin : s.inputs with
  | nil => exact ⟨_, step_idle hin, hin, nofun⟩
  | cons input rest =>
    cases input with
    | command cw =>
      obtain ⟨t, r, ht, hrsp, hlegal⟩ := execute_rsp_legal cw { s with inputs := rest }
      exact ⟨t, (step_command hin).trans ht, (execute_inputs_fb_wf ht).1,
        fun _ _ _ => ⟨r, hrsp, hlegal, status_ne_three_of_legal hlegal⟩⟩
    | rst => exact ⟨_, step_rst hin, rfl, nofun⟩

/-- The 256 free values of a reset fill the buffer. -/
theorem applyReset_bytes_fit (s : State) :
    0 + ((s.advanceDraws 1).freeBytes Config.fbSize).length ≤ Config.fbSize := by
  rw [State.freeBytes_length, Nat.zero_add]

theorem applyReset_inv (s : State) : s.applyReset.Inv where
  fb_wf := s.applyReset_fb ▸ Memory.wf_writeBytes Memory.wf_nil (applyReset_bytes_fit s)
  rsp_legal := nofun

theorem execute_inv {cw : CommandWord} {s t : State} (hinv : s.Inv) (h : execute cw s = .next t) : t.Inv where
  fb_wf := (execute_inputs_fb_wf h).2 hinv.fb_wf
  rsp_legal := by
    obtain ⟨t', r, ht, hrsp, hlegal⟩ := execute_rsp_legal cw s
    cases h.symm.trans ht
    rw [hrsp]
    rintro _ ⟨⟩
    exact hlegal

theorem exec_inv {i : Instr} {s t : State} (hinv : s.Inv) (h : exec i s = .next t) : t.Inv :=
  execute_inv hinv ((execute_of_decode (decode_encode i) s).trans h)

/-- The host's inputs do not enter the invariant. -/
theorem State.Inv.setInputs {s : State} (h : s.Inv) (inputs : List HostInput) :
    State.Inv { s with inputs := inputs } := ⟨h.fb_wf, h.rsp_legal⟩

/-- Settles O44: by what a step can do. -/
theorem stepKeepsTheInvariant : Obligations.StepKeepsTheInvariant := by
  intro s t hinv h
  rcases step_cases h with ⟨-, ht⟩ | ⟨cw, rest, -, ht⟩ | ⟨rest, -, ht⟩
  · cases ht
    exact ⟨hinv.fb_wf, nofun⟩
  · exact execute_inv (hinv.setInputs rest) ht
  · cases ht
    exact applyReset_inv _

/-! ### O25, O30: runs of commands -/

/-- Settles O25: the commands write the bytes in a row. -/
theorem fbLoadFillsTheFrame : Obligations.FbLoadFillsTheFrame := by
  intro a data s hinv ha hin
  obtain ⟨t, hrun, hfb, hcrc, hin', hdraws⟩ := run_fbLoadCommands ha hin
  refine ⟨t, hrun, fun i hi => ?_, fun j hj => ?_, hcrc, hin', hdraws⟩
  · rw [hfb, Memory.read_writeBytes hinv.fb_wf ha, dif_pos (by omega)]
    simp only [Nat.add_sub_cancel_left]
  · rw [hfb, Memory.read_writeBytes hinv.fb_wf ha, dif_neg (by omega)]

/-- The word answers and keeps `P`, whatever the host's later inputs are. -/
def WordKeeps (P : State → Prop) (cw : CommandWord) : Prop :=
  ∀ (s : State) (inputs : List HostInput), P s → ∃ t, execute cw { s with inputs := inputs } = .next t ∧ P t

/-- What every word of a list keeps holds after their run, with the inputs after them next. -/
theorem run_words {P : State → Prop} {words : List CommandWord} {rest : List HostInput}
    (hwords : ∀ cw ∈ words, WordKeeps P cw) {s : State} (hs : P s)
    (hin : s.inputs = words.map HostInput.command ++ rest) (k : Nat) :
    ∃ t, run (words.length + k) s = run k t ∧ t.inputs = rest ∧ P t := by
  induction words generalizing s with
  | nil => exact ⟨s, by rw [List.length_nil, Nat.zero_add], hin, hs⟩
  | cons cw words ih =>
    obtain ⟨hcw, hrest⟩ := List.forall_mem_cons.1 hwords
    obtain ⟨t, ht, hPt⟩ := hcw s (words.map HostInput.command ++ rest) hs
    obtain ⟨t', hrun, hdone⟩ := ih hrest hPt (execute_inputs_fb_wf ht).1
    refine ⟨t', ?_, hdone⟩
    rw [List.length_cons, Nat.add_right_comm, run_succ ((step_command hin).trans ht), hrun]

/-- A first command that brings `P` about, words that keep it, and a last command: the run ends with the last command's
answer from a state where `P` holds. -/
theorem run_between {P : State → Prop} {words : List CommandWord} {first last : Instr} {s t₁ : State}
    (hfirst : exec first { s with inputs := words.map HostInput.command ++ [.command (encode last)] } = .next t₁)
    (ht₁ : P t₁) (hwords : ∀ cw ∈ words, WordKeeps P cw) :
    ∃ t, P t ∧ ∀ t', exec last { t with inputs := [] } = .next t' →
      run (words.length + 2)
        { s with inputs := (encode first :: words ++ [encode last]).map HostInput.command } = .next t' := by
  obtain ⟨_, hexec, hin, -⟩ :=
    exec_fb first { s with inputs := words.map HostInput.command ++ [.command (encode last)] }
  cases hfirst.symm.trans hexec
  obtain ⟨t, hrun, hlast, hPt⟩ := run_words hwords ht₁ hin 1
  refine ⟨t, hPt, fun t' ht' => ?_⟩
  have hstart := (step_encode (s := { s with
    inputs := (encode first :: words ++ [encode last]).map HostInput.command }) (by simp)).trans hfirst
  rw [run_succ hstart (words.length + 1), hrun, run_succ ((step_encode hlast).trans ht'), run_zero]

/-- The cell `a` holds the byte `d`, in a state that meets the invariant. -/
structure CellHolds (a d : Byte) (s : State) : Prop where
  inv : s.Inv
  read_eq : s.fb.read (effectiveAddr a) = d

/-- A word that does not write the cell `a` keeps the byte in it (R31). -/
theorem execute_keeps_cell {cw : CommandWord} {a : Byte} (hwr : ∀ d, decode cw ≠ .ok (.fbWr a d))
    (hcompact : ∀ l, decode cw = .ok (.fcCompact l) → a.toNat < 10 ∨ l.toNat ≤ a.toNat) {s : State} (hinv : s.Inv) :
    ∃ t, execute cw s = .next t ∧ t.fb.read (effectiveAddr a) = s.fb.read (effectiveAddr a) := by
  obtain ⟨t, ht, -, hother, hwrite, hcomp⟩ := bufferAccessByCommand cw s hinv
  refine ⟨t, ht, ?_⟩
  by_cases hw : ∃ a' d, decode cw = .ok (.fbWr a' d)
  · obtain ⟨a', d, hd⟩ := hw
    refine hwrite a' d hd _ fun haddr => hwr d ?_
    rw [hd, BitVec.eq_of_toNat_eq haddr]
  · by_cases hc : ∃ l, decode cw = .ok (.fcCompact l)
    · obtain ⟨l, hd⟩ := hc
      exact hcomp l hd _ (hcompact l hd)
    · rw [(hother (fun a' d hd => hw ⟨a', d, hd⟩) fun l hd => hc ⟨l, hd⟩).1]

/-- FB.RD returns what FB.WR wrote when the words between write that cell no more (R31). -/
theorem run_fbWr_words_fbRd {s : State} (hinv : s.Inv) {words : List CommandWord} {a d : Byte}
    (hwr : ∀ cw ∈ words, ∀ d', decode cw ≠ .ok (.fbWr a d'))
    (hcompact : ∀ cw ∈ words, ∀ l, decode cw = .ok (.fcCompact l) → a.toNat < 10 ∨ l.toNat ≤ a.toNat) :
    ∃ t, run (words.length + 2)
        { s with inputs := (encode (.fbWr a d) :: words ++ [encode (.fbRd a)]).map HostInput.command } = .next t ∧
      t.rsp = some ⟨0, d.setWidth 16⟩ := by
  have hkeep : ∀ cw ∈ words, WordKeeps (CellHolds a d) cw := by
    intro cw hcw s inputs hs
    have hs' := hs.inv.setInputs inputs
    obtain ⟨t, ht, hread⟩ := execute_keeps_cell (hwr cw hcw) (hcompact cw hcw) hs'
    exact ⟨t, ht, execute_inv hs' ht, hread.trans hs.read_eq⟩
  obtain ⟨t, ht, hrun⟩ := run_between (s := s) (first := .fbWr a d) (last := .fbRd a) rfl
    ⟨exec_inv (i := .fbWr a d) (hinv.setInputs _) rfl, (Memory.read_write hinv.fb_wf).trans (if_pos rfl)⟩ hkeep
  exact ⟨_, hrun _ rfl, congrArg (fun b : Byte => some (okResponse (zext16 b))) ht.read_eq⟩

/-- CRC.RD returns what CRC.LD loaded when the words between write the register no more (R31). -/
theorem run_crcLd_words_crcRd {s : State} {words : List CommandWord} {v : Half}
    (hld : ∀ cw ∈ words, ∀ v', decode cw ≠ .ok (.crcLd v'))
    (hstep : ∀ cw ∈ words, ∀ b, decode cw ≠ .ok (.crcStep b)) :
    ∃ t, run (words.length + 2)
        { s with inputs := (encode (.crcLd v) :: words ++ [encode .crcRd]).map HostInput.command } = .next t ∧
      t.rsp = some ⟨0, v⟩ := by
  have hkeep : ∀ cw ∈ words, WordKeeps (·.crc = v) cw := by
    intro cw hcw s inputs hs
    obtain ⟨t, ht, -, -, hcrc⟩ := execute_crc cw { s with inputs := inputs }
    exact ⟨t, ht, (hcrc (hld cw hcw) (hstep cw hcw)).trans hs⟩
  obtain ⟨t, hcrc, hrun⟩ := run_between (P := (·.crc = v)) (s := s) (first := .crcLd v) (last := .crcRd) rfl rfl hkeep
  exact ⟨_, hrun _ rfl, congrArg (fun v => some (okResponse v)) hcrc⟩

/-- Settles O30: the words between keep the cell, or the register, that the first command wrote. -/
theorem readReturnsTheLatestWrite : Obligations.ReadReturnsTheLatestWrite :=
  fun _ _ hinv => ⟨fun _ _ hwr hcompact => run_fbWr_words_fbRd hinv hwr hcompact,
    fun _ hld hstep => run_crcLd_words_crcRd hld hstep⟩

/-! ### O45, O46: the parameter -/

/-- A word that is no CRC.STEP does not depend on the polynomial (R5, R65). -/
theorem executeWith_of_ne_crcStep {cw : CommandWord} (h : ∀ byte, decode cw ≠ .ok (.crcStep byte)) (p : Parameters)
    (s : State) : executeWith p cw s = execute cw s := by
  cases hd : decode cw with
  | ok i =>
    have hne : ∀ byte, i ≠ .crcStep byte := fun byte e => h byte (hd.trans (congrArg _ e))
    rw [executeWith, executeUsing_of_decode hd, execute_of_decode hd, execWith_of_ne_crcStep hne]
  | error why => rw [executeWith, executeUsing_of_illegal hd, execute_of_illegal hd]

/-- Settles O45: CRC.STEP alone uses the polynomial. -/
theorem everyPolynomialHasItsMachine : Obligations.EveryPolynomialHasItsMachine := by
  refine ⟨execWith_crcStep, fun p i s h => execWith_of_ne_crcStep h p s,
    fun p s cw rest i hin hd => (stepUsing_command hin).trans (executeUsing_of_decode hd _), fun p s h => ?_,
    fun s => congrFun stepWith_default s, rfl⟩
  cases hin : s.inputs with
  | nil => exact (stepUsing_idle hin).trans (step_idle hin).symm
  | cons input rest =>
    cases input with
    | command cw =>
      have hword := executeWith_of_ne_crcStep (fun byte => h cw rest byte hin) p { s with inputs := rest }
      exact (stepUsing_command hin).trans (hword.trans (step_command hin).symm)
    | rst => exact (stepUsing_rst hin).trans (step_rst hin).symm

/-- Settles O46: the run of CHECKSUM's commands is the same for every polynomial. -/
theorem checksumForEveryPolynomial : Obligations.ChecksumForEveryPolynomial :=
  fun _ _ _ => runWith_checksumCommands

/-! ### O38, O40, O41, O42, O43: steps and reset -/

theorem tableWord_toNat (w : CommandWord) : tableWord 24 w.toNat = w := by
  rw [tableWord, Nat.mod_eq_of_lt w.isLt, BitVec.ofNat_toNat, BitVec.setWidth_eq]

/-- Settles O38: a step executes the word that it takes. -/
theorem stepRunsTheDecodedCommand : Obligations.StepRunsTheDecodedCommand := by
  refine ⟨fun s cw rest i hin hd => (step_command hin).trans (execute_of_decode hd _),
    fun s cw rest hin h => (step_command hin).trans (illegalWordIsNotExecuted cw _ h), fun s w => ?_⟩
  rw [State.withFetchWord_eq, tableWord_toNat]
  exact step_command (State.offer_inputs s w)

/-- Settles O40: with nothing offered a step is `State.idle`. -/
theorem idleStepHoldsTheState : Obligations.IdleStepHoldsTheState := fun _ => step_idle

theorem read_applyReset (s : State) {i : Nat} (hi : i < Config.fbSize) :
    s.applyReset.fb.read i = Config.freeByte (s.draws + 1 + i) := by
  rw [State.applyReset_fb, Memory.read_writeBytes Memory.wf_nil (applyReset_bytes_fit s),
    dif_pos (by rw [State.freeBytes_length]; omega), State.freeBytes_getElem, Nat.sub_zero, State.advanceDraws_draws]

/-- Settles O41: a reset writes a free value to every cell. -/
theorem resetInputLeavesUnspecifiedValues : Obligations.ResetInputLeavesUnspecifiedValues :=
  fun _ _ hin => ⟨_, step_rst hin, rfl, rfl, rfl, rfl, fun _ hi => read_applyReset _ hi, rfl⟩

/-- Settles O42: the fields of the reset state, whose buffer lists no cell. -/
theorem resetStateIsIdle : Obligations.ResetStateIsIdle := ⟨rfl, rfl, rfl, rfl, rfl, Memory.read_nil⟩

/-- Settles O43: an empty buffer is canonical, and there is no response. -/
theorem resetMeetsTheInvariant : Obligations.ResetMeetsTheInvariant := ⟨Memory.wf_nil, nofun⟩

end Sys2Proof.Machine
